-- ==== Sys2Proof/Word.lean ====
section
/-!
DEFINITION. The widths of the machine (spec/00_scope.md rules R4, R5; spec/10_state.md rule R19): what the spec treats as
bits is a bit vector, a register number or a key code is a number below 16. All values are unsigned (R5).
-/

namespace Sys2Proof

/-- An 8-bit value: a memory byte, a general register, a timer, a constant `kk` (R4). -/
abbrev Byte := BitVec 8

/-- A 16-bit value: an instruction word, `I`, `PC`, a stack entry (R4). -/
abbrev Word := BitVec 16

/-- A register number `x` or `y`, 0 to 15; every value is a valid register, 15 (VF) included (R21, R92). -/
abbrev Reg := Fin 16

/-- A logical key, 0 to 15: an out-of-range answer of the Input collaborator cannot be written down (R190). -/
abbrev Key := Fin 16

/-- VF, register 15, the machine's only flag (R10, R22; `FLAG_REG` of R4). -/
abbrev vf : Reg := 15

/-- `zext_16(v)` of R5. -/
abbrev zext16 {w : Nat} (v : BitVec w) : Word := v.setWidth 16

/-- `trunc8(n) = n mod 256` of R5, on the exact natural number. -/
abbrev trunc8 (n : Nat) : Byte := BitVec.ofNat 8 n

/-- `zext_8(bool(c))` of R5: 0x01 if `c` holds, else 0x00. -/
abbrev flagByte (c : Bool) : Byte := if c then 1 else 0

end Sys2Proof
end

