-- ==== Sys2Proof/Config.lean ====
section
/-!
DEFINITION. What is fixed for the machine, what it takes as an argument, and the free values (spec/00_scope.md rule R4;
spec/93_implementation_defined.md U1, U4, U13, U19). The defaults of the arguments and the decided parameters a test could show
wrong (the key sampling mode, the decode error's PC advance) stand in Machine/Params.lean.
-/

namespace Sys2Proof

/-- `MEM_SIZE` (R4, fixed). -/
abbrev Config.memSize : Nat := 4096

/-- `PROG_BASE` and `RESET_PC`, 0x200 (R4, fixed). -/
abbrev Config.progBase : Nat := 512

/-- `MAX_IMAGE` = 4096 − 512 (R4, fixed). -/
abbrev Config.maxImage : Nat := 3584

/-- `FONT_LEN` (R4, fixed): 16 glyphs of 5 bytes at `FONT_BASE` = 0. -/
abbrev Config.fontLen : Nat := 80

/-- The 80 bytes of a font table, glyph `g` at offset `5·g` (R61, R62). -/
abbrev Font := Vector Byte Config.fontLen

/-- The parameters of R4 that are OPEN, "the model takes it as an argument": every machine has its own, fixed before `init` (R260;
log entry 35). -/
structure Parameters where
  /-- `FONT[0..80)` (R62) -/
  font : Font
  /-- `SCREEN_W`, at least 1 (R213, R214) -/
  screenW : ℕ+
  /-- `SCREEN_H`, at least 1 (R213, R214) -/
  screenH : ℕ+
  deriving DecidableEq, Repr

/-- What `Input.blockingReadKey()` answers: a logical key, or the sentinel `quit` (R190). -/
inductive KeyAnswer where
  | key (k : Key)
  | quit
  deriving DecidableEq, Repr

/-- What the collaborators answer during one `step` event (R9, R127). -/
structure StepInput where
  /-- The 16 answers of `Input.isKeyDown(k)`, asked by the poll (R190, R191). -/
  keysDown : Vector Bool 16
  /-- The answer of `Input.blockingReadKey()`; `none`: it has not answered yet (R190, R197). -/
  keyAnswer : Option KeyAnswer
  /-- `draw_random_byte()` of this step (R211). -/
  randomByte : Byte
  /-- The unspecified `V[x]` after a quit, "a draw" (R198, U1). -/
  quitByte : Byte
  deriving DecidableEq, Repr

/-- FREE VALUE (log entry 8): the 16 answers of `isKeyDown` at the poll numbered `n` (R190, U19). Safe. -/
opaque Config.keysDown (n : Nat) : Vector Bool 16

/-- FREE VALUE (log entry 9): what `blockingReadKey` answers when it is looked at for the `n`-th time; `none` is "not yet", so it
"may take unbounded time, and it may never answer" (R190, R197, U12). Safe. -/
opaque Config.keyAnswer (n : Nat) : Option KeyAnswer

/-- FREE VALUE (log entry 7): the random byte, "any value 0..255, a free input of this step" (R211, U4). Safe. -/
opaque Config.randomByte (n : Nat) : Byte

/-- FREE VALUE (log entry 10): `V[x]` after `Fx0A` ends by quit (R198, U1). Safe. -/
opaque Config.quitByte (n : Nat) : Byte

/-- The answers of the `n`-th draw: nothing in Lean can evaluate one of them. -/
def StepInput.free (n : Nat) : StepInput :=
  { keysDown := Config.keysDown n, keyAnswer := Config.keyAnswer n, randomByte := Config.randomByte n,
    quitByte := Config.quitByte n }

end Sys2Proof
end

