-- ==== Sys2Proof/Machine/Params.lean ====
section
/-!
DEFINITION. The parameters of spec/00_scope.md rule R4 that the spec decides itself (the key sampling mode, the PC advance of a
decode error), and its defaults for those it leaves OPEN (the font bytes, the screen size), which `State.reset` takes.
-/

namespace Sys2Proof.Machine

/-- Glyphs 0 to 7 of the default font (R62). PRESUMED (log entry 3): a default. -/
def fontLow : List Byte :=
  [0xF0, 0x90, 0x90, 0x90, 0xF0,
   0x20, 0x60, 0x20, 0x20, 0x70,
   0xF0, 0x10, 0xF0, 0x80, 0xF0,
   0xF0, 0x10, 0xF0, 0x10, 0xF0,
   0x90, 0x90, 0xF0, 0x10, 0x10,
   0xF0, 0x80, 0xF0, 0x10, 0xF0,
   0xF0, 0x80, 0xF0, 0x90, 0xF0,
   0xF0, 0x10, 0x20, 0x40, 0x40]

/-- Glyphs 8 to F of the default font (R62). PRESUMED (log entry 3): a default. -/
def fontHigh : List Byte :=
  [0xF0, 0x90, 0xF0, 0x90, 0xF0,
   0xF0, 0x90, 0xF0, 0x10, 0xF0,
   0xF0, 0x90, 0xF0, 0x90, 0x90,
   0xE0, 0x90, 0xE0, 0x90, 0xE0,
   0xF0, 0x80, 0x80, 0x80, 0xF0,
   0xE0, 0x90, 0x90, 0x90, 0xE0,
   0xF0, 0x80, 0xF0, 0x80, 0xF0,
   0xF0, 0x80, 0xF0, 0x80, 0x80]

/-- The default of `FONT[0..80)` (R62). PRESUMED (log entry 3): a default. -/
def defaultFont : Font := ⟨(fontLow ++ fontHigh).toArray, rfl⟩

/-- The defaults of the OPEN parameters (R4, R62, R214). PRESUMED (log entries 3 and 4): a claim about `State.reset` is a claim about
them, a claim about all states is one about all parameters. -/
def defaultParameters : Parameters := { font := defaultFont, screenW := ⟨64, by decide⟩, screenH := ⟨32, by decide⟩ }

/-- The two values of `KEY_SAMPLE_MODE` (R191). -/
inductive KeySampleMode where
  | edge
  | level
  deriving DecidableEq, Repr

/-- `KEY_SAMPLE_MODE` (R4, R191): edge, the spec's own decision D9 (log entry 18). DESIGN CHOICE: unsafe. -/
def keySampleMode : KeySampleMode := .edge

/-- `DECODE_ERROR_PC_ADVANCE` (R4, R124): 2, the spec's own decision D1 (log entry 17). DESIGN CHOICE: unsafe. -/
def decodeErrorPcAdvance : Word := 2

end Sys2Proof.Machine
end

