-- ==== Sys2Proof/Machine/State.lean ====
section
/-!
DEFINITION. The state of the machine (spec/10_state.md rules R19 to R37) as plain data, the reasons a step can stop, and the state
after `init` (R35, R260). INVENTORY.md's '## State' names the rule of every field.
-/

namespace Sys2Proof.Machine

/-- Why the machine stops with no next state. A fatal fault of the spec is NOT one of these: it is a next state with the sticky
register `fault` written (R240). -/
inductive Fault where
  /-- Raised by the host event `deinit` alone, never by an instruction: the state is discarded, "the end of the run" (R264; log
  entry 14). Safe. -/
  | deinitialised
  deriving DecidableEq, Repr

/-- Why an instruction has no meaning. No instruction of this model is refused. -/
inductive Refusal where
  /-- Raised by an arm of `exec` whose instruction has no meaning yet; no arm of this model is one. Safe. -/
  | notModelled (mnemonic : String)
  deriving DecidableEq, Repr

/-- The values of the sticky `fault` register (R32, R231; the numeric codes are `FaultCode.code`). -/
inductive FaultCode where
  /-- code 0, `None` -/
  | noFault
  /-- code 1: `2nnn` with `SP == 16` (R232) -/
  | stackOverflow
  /-- code 2: `00EE` with `SP == 0` (R233) -/
  | stackUnderflow
  /-- code 3: `Dxyn`, `Fx33`, `Fx55`, `Fx65` past address 4095 (R234) -/
  | dataAddressFault
  /-- code 4: a fetch with `PC > 4094` (R64, R234) -/
  | fetchAddressFault
  deriving DecidableEq, Repr

/-- The record `faultInfo` (R32, R231). -/
structure FaultInfo where
  /-- the `PC` of the faulting instruction -/
  pc : Word
  /-- the instruction word; 0 for a fetch fault -/
  op : Word
  /-- the first out-of-range address; 0 for the stack faults -/
  addr : BitVec 17
  deriving DecidableEq, Repr

/-- The keyboard block (R245): latches, previous samples and the FIFO in the circular layout of R29. -/
structure Keyboard where
  /-- the 16 key latches (R27) -/
  keyState : Vector Bool 16
  /-- the previous poll's answers (R28) -/
  keyPrev : Vector Bool 16
  /-- the FIFO's storage (R29) -/
  q : Vector Key 16
  /-- the FIFO's read index (R29) -/
  qHead : Fin 16
  /-- the number of queued events, 0 to 16 (R29) -/
  qCount : Fin 17
  deriving DecidableEq, Repr

/-- A pixel's coordinates (R213). -/
structure Pixel where
  row : Nat
  col : Nat
  deriving DecidableEq, Repr

/-- The reference display's frame buffer `fb[row][col]` (R214) as the pixels that are lit, in reading order; the canonical form is
`Display.wf` (log entry 5). -/
abbrev Display := List Pixel

/-- `memory` (R20) as the cells whose byte differs from the reset contents; the canonical form is `Memory.wf` (log entry 2). -/
abbrev Memory := List Host.Cell

/-- What the driver can do between two steps: the events of R8 other than `step`, and the acknowledgement of R30. -/
inductive HostEvent where
  /-- `init` (R260) -/
  | init
  /-- `load(bytes, L)`, `L` the length of `bytes` (R73) -/
  | load (bytes : List Byte)
  /-- `tick_timers` (R180) -/
  | tickTimers
  /-- `ackDraw` (R30) -/
  | ackDraw
  /-- `deinit` (R264) -/
  | deinit
  deriving DecidableEq, Repr

/-- One pending item of the driver and the collaborators (R8; log entry 12). -/
inductive Event where
  /-- an event other than `step` -/
  | host (e : HostEvent)
  /-- a `step` event with the collaborators' answers to it -/
  | step (input : StepInput)
  /-- the Input collaborator's answer to a `blockingReadKey` that is still waiting; `none`: it lets the step wait on -/
  | answer (a : Option KeyAnswer)
  deriving DecidableEq, Repr

/-- The state. The fields down to `faultInfo` are the tuple of R19 (`kbd` holds five of them); `display` is the Display
collaborator's (R214); `params` are the machine's parameters (R4); the last four are the model's own. -/
structure State where
  /-- `memory` (R20) -/
  memory : Memory
  /-- `V` (R21, R22) -/
  v : Vector Byte 16
  /-- `I` (R23) -/
  i : Word
  /-- `PC` (R24) -/
  pc : Word
  /-- `stack` (R25) -/
  stack : Vector Word 16
  /-- `SP`, 0 to 16 (R25) -/
  sp : Fin 17
  /-- `delay` (R26) -/
  delay : Byte
  /-- `sound` (R26) -/
  sound : Byte
  /-- `keyState`, `keyPrev` and `keyEventQueue` (R27 to R29) -/
  kbd : Keyboard
  /-- `drawRequested` (R30) -/
  drawRequested : Bool
  /-- `haltRequested` (R31) -/
  haltRequested : Bool
  /-- `fault` (R32) -/
  fault : FaultCode
  /-- `faultInfo` (R32) -/
  faultInfo : FaultInfo
  /-- the reference display (R214; log entry 5) -/
  display : Display
  /-- the machine's OPEN parameters (R4), which no event changes (R260; log entry 35) -/
  params : Parameters
  /-- MODEL'S OWN: the collaborators' answers to the step in progress (R9, R127; log entry 11) -/
  input : StepInput
  /-- MODEL'S OWN: how many draws of free values have been made (log entry 11) -/
  draws : Nat
  /-- MODEL'S OWN: the `WAIT_KEY` state of R197: a step is blocked in `Fx0A` (log entry 13) -/
  waiting : Bool
  /-- MODEL'S OWN: the driver's pending events, first to come first; when empty the driver issues `step` (log entry 12) -/
  events : List Event
  deriving DecidableEq, Repr

/-- The keyboard block after `init` (R35; DESIGN CHOICE, log entry 1). -/
def Keyboard.reset : Keyboard :=
  { keyState := Vector.replicate 16 false, keyPrev := Vector.replicate 16 false, q := Vector.replicate 16 0, qHead := 0,
    qCount := 0 }

/-- A display with every pixel off (R213, R214). -/
def Display.off : Display := []

/-- The answers that stand in `input` before the first step; every step overwrites them (DESIGN CHOICE, log entry 11). -/
def StepInput.quiet : StepInput :=
  { keysDown := Vector.replicate 16 false, keyAnswer := none, randomByte := 0, quitByte := 0 }

/-- The state right after `init` of the machine with the parameters `p` (R4, R35, R260). `PC` and the memory are given; the zeros are
DESIGN CHOICE (log entry 1), unsafe. -/
def State.resetWith (p : Parameters) : State :=
  { memory := [], v := Vector.replicate 16 0, i := 0, pc := BitVec.ofNat 16 Config.progBase, stack := Vector.replicate 16 0,
    sp := 0, delay := 0, sound := 0, kbd := Keyboard.reset, drawRequested := false, haltRequested := false,
    fault := .noFault, faultInfo := { pc := 0, op := 0, addr := 0 }, display := Display.off, params := p, input := StepInput.quiet,
    draws := 0, waiting := false, events := [] }

/-- The state right after `init` of the machine with the spec's default parameters (R4; log entries 3 and 4). -/
def State.reset : State := State.resetWith defaultParameters

end Sys2Proof.Machine
end

