-- ==== Sys2Proof/Machine/Ops.lean ====
section
/-!
DEFINITION. The named operations over memory, registers, the return stack, the key FIFO and the display, and taking a fatal fault as
ONE shared operation (spec/20_memory.md R60 to R74, spec/42_control_flow.md R171, spec/44_keyboard.md R192 and R193,
spec/45_sprite_memory.md R213 and R214, spec/60_exceptions.md R240). There is no return from a fault (R241).
-/

namespace Sys2Proof.Machine

/-! ### Memory -/

/-- What an address with no cell reads as: the reset contents, the machine's font at [0, 80) and 0 above (R35, R61, R62; log entry 2). -/
def Memory.initial (f : Font) (a : Nat) : Byte := if h : a < Config.fontLen then f[a] else 0

/-- One byte of the memory. Addresses above 4095 do not exist (R60): every caller checks its whole range first (R63, R219). -/
def Memory.read (f : Font) (m : Memory) (a : Nat) : Byte :=
  match m with
  | [] => Memory.initial f a
  | (c, x) :: rest => if c = a then x else Memory.read f rest a

/-- Put the byte `b` at `a` in the canonical list: the cells stay in rising order, and a byte equal to the reset contents leaves no
cell. -/
def Memory.insert (f : Font) (m : Memory) (a : Nat) (b : Byte) : Memory :=
  match m with
  | [] => if b = Memory.initial f a then [] else [(a, b)]
  | (c, x) :: rest =>
    if a < c then (if b = Memory.initial f a then (c, x) :: rest else (a, b) :: (c, x) :: rest)
    else if a = c then (if b = Memory.initial f a then rest else (a, b) :: rest)
    else (c, x) :: Memory.insert f rest a b

/-- `memory[a] <- b` (R63). Above 4095 there is no byte to write (R60); no instruction gets that far (R219; log entry 24). -/
def Memory.write (f : Font) (m : Memory) (a : Nat) (b : Byte) : Memory :=
  if a < Config.memSize then Memory.insert f m a b else m

/-- Consecutive byte writes in ascending address order (R67). -/
def Memory.writeBytes (f : Font) (m : Memory) (a : Nat) (bytes : List Byte) : Memory :=
  match bytes with
  | [] => m
  | b :: rest => Memory.writeBytes f (Memory.write f m a b) (a + 1) rest

/-- The canonical form above the bound `lo`: addresses strictly rising from `lo`, below 4096, no cell equal to the reset
contents. -/
def Memory.wfFrom (f : Font) (lo : Nat) (m : Memory) : Bool :=
  match m with
  | [] => true
  | (a, x) :: rest =>
    decide (lo ≤ a) && decide (a < Config.memSize) && decide (x ≠ Memory.initial f a) && Memory.wfFrom f (a + 1) rest

/-- The memory is in its canonical form (log entry 2). -/
def Memory.wf (f : Font) (m : Memory) : Bool := Memory.wfFrom f 0 m

/-- The byte at address `a` of the state's memory. -/
def State.byteAt (s : State) (a : Nat) : Byte := Memory.read s.params.font s.memory a

/-- The state with consecutive bytes stored from `a` on (R67). -/
def State.storeBytes (s : State) (a : Nat) (bytes : List Byte) : State :=
  { s with memory := Memory.writeBytes s.params.font s.memory a bytes }

/-! ### Registers and the program counter -/

/-- `V[x]` (R6, R21). -/
def State.getV (s : State) (x : Reg) : Byte := s.v[x.val]

/-- `V[x] <- b` (R6, R21). -/
def State.setV (s : State) (x : Reg) (b : Byte) : State := { s with v := s.v.set x.val b }

/-- `pc <- pc + k`, a 16-bit addition (R24, R74). -/
def State.advance (s : State) (k : Word) : State := { s with pc := s.pc + k }

/-- `pc <- pc + 2`, the normal advance (R123). -/
def State.advanceNext (s : State) : State := s.advance 2

/-- The skip: `pc <- pc + 4` if the condition holds, else `pc <- pc + 2` (R10, R169). -/
def State.skipIf (s : State) (c : Bool) : State := if c then s.advance 4 else s.advance 2

/-! ### The return stack -/

/-- `push(v)`; `none` is `StackOverflow`, raised before anything is written (R171). -/
def State.push? (s : State) (v : Word) : Option State :=
  if h : s.sp.val < 16 then
    some { s with stack := s.stack.set s.sp.val v h, sp := ⟨s.sp.val + 1, by omega⟩ }
  else none

/-- `pop()`; `none` is `StackUnderflow`. The slot keeps its value (R171). -/
def State.pop? (s : State) : Option (Word × State) :=
  if h : 0 < s.sp.val then
    some (s.stack[s.sp.val - 1]'(by omega), { s with sp := ⟨s.sp.val - 1, by omega⟩ })
  else none

/-! ### The key FIFO -/

/-- The slot `(qHead + n) mod 16` (R29). -/
def Keyboard.slot (k : Keyboard) (n : Nat) : Fin 16 := ⟨(k.qHead.val + n) % 16, Nat.mod_lt _ (by decide)⟩

/-- `keyEventQueue`, oldest first: `q[(qHead + i) mod 16]` for `i` in `[0, qCount)` (R29). -/
def Keyboard.entries (k : Keyboard) : List Key := (List.range k.qCount.val).map (fun n => k.q[(k.slot n).val])

/-- `enqueue(k)`: append, or drop silently when 16 are queued (R192). -/
def Keyboard.enqueue (k : Keyboard) (key : Key) : Keyboard :=
  if h : k.qCount.val < 16 then
    { k with q := k.q.set (k.slot k.qCount.val).val key, qCount := ⟨k.qCount.val + 1, by omega⟩ }
  else k

/-- `dequeue()`: the oldest entry, and the FIFO without it; used only when `qCount > 0` (R193). -/
def Keyboard.dequeue (k : Keyboard) : Key × Keyboard :=
  (k.q[k.qHead.val], { k with qHead := k.slot 1, qCount := ⟨k.qCount.val - 1, by omega⟩ })

/-- The latch `keyState[key]` (R27). -/
def Keyboard.latched (k : Keyboard) (key : Key) : Bool := k.keyState[key.val]

/-- `keyState[key] <- b` (R27). -/
def Keyboard.setLatch (k : Keyboard) (key : Key) (b : Bool) : Keyboard := { k with keyState := k.keyState.set key.val b }

/-! ### The display -/

/-- Reading order: by row, then by column. -/
def Pixel.before (p q : Pixel) : Bool := decide (p.row < q.row) || (decide (p.row = q.row) && decide (p.col < q.col))

/-- The pixel is lit in the frame buffer (R214). -/
def Display.lit (d : Display) (p : Pixel) : Bool := decide (p ∈ d)

/-- Put a pixel that is not lit at its place in reading order. -/
def Display.light (d : Display) (p : Pixel) : Display :=
  match d with
  | [] => [p]
  | q :: rest => if p.before q then p :: q :: rest else q :: Display.light rest p

/-- `Display.toggle(row, col) -> wasLit`: invert the pixel, answer what it was (R213, R214). -/
def Display.toggle (d : Display) (p : Pixel) : Bool × Display :=
  if Display.lit d p then (true, d.filter (fun q => decide (q ≠ p))) else (false, Display.light d p)

/-- The canonical form of the frame buffer of the machine `p`: reading order, no repeats, every pixel on the screen (log entry 5). -/
def Display.wf (p : Parameters) (d : Display) : Bool :=
  decide (d.Pairwise (fun q r => q.before r = true)) &&
    d.all (fun q => decide (q.row < (p.screenH : Nat)) && decide (q.col < (p.screenW : Nat)))

/-- The toggles of a list of pixels in order, with the collision so far: "if w == 1: collision <- 1" (R212). -/
def Display.toggleAll (d : Display) (ps : List Pixel) (collision : Bool) : Bool × Display :=
  match ps with
  | [] => (collision, d)
  | p :: rest => Display.toggleAll (Display.toggle d p).2 rest (collision || (Display.toggle d p).1)

/-- `Display.clear()`: every pixel off (R213, R214). -/
def State.clearDisplay (s : State) : State := { s with display := Display.off }

/-! ### Fatal faults -/

/-- The numeric cause code of the `fault` register (R231). -/
def FaultCode.code (c : FaultCode) : Nat :=
  match c with
  | .noFault => 0
  | .stackOverflow => 1
  | .stackUnderflow => 2
  | .dataAddressFault => 3
  | .fetchAddressFault => 4

/-- `raise <Fault>(info)`: write `fault` and `faultInfo`, nothing else; the `PC` saved is the one the step started with (R240). -/
def State.raise (s : State) (c : FaultCode) (op : Word) (addr : Nat) : State :=
  { s with fault := c, faultInfo := { pc := s.pc, op := op, addr := BitVec.ofNat 17 addr } }

end Sys2Proof.Machine
end

