-- ==== Sys2Proof/WellFormed.lean ====
section
/-!
DEFINITION. What is well formed. A term of `Instr` is so by its field types (R91, R92): there is no ill-formed `Instr` term. What
can be ill formed is a raw 16-bit word (it matches no row of rule R95) and a program image (longer than `MAX_IMAGE`, R73).
-/

namespace Sys2Proof

/-- One row of rule R95: the word `op` is this instruction iff `(op & mask) == match`. -/
structure OpcodeRow where
  mask : Word
  pattern : Word
  deriving DecidableEq, Repr

/-- The mask and match columns of rule R95, rows 1 to 19. -/
def opcodeRowsLow : List OpcodeRow :=
  [⟨0xFFFF, 0x00E0⟩, ⟨0xFFFF, 0x00EE⟩, ⟨0xF000, 0x1000⟩, ⟨0xF000, 0x2000⟩, ⟨0xF000, 0x3000⟩, ⟨0xF000, 0x4000⟩,
   ⟨0xF00F, 0x5000⟩, ⟨0xF000, 0x6000⟩, ⟨0xF000, 0x7000⟩, ⟨0xF00F, 0x8000⟩, ⟨0xF00F, 0x8001⟩, ⟨0xF00F, 0x8002⟩,
   ⟨0xF00F, 0x8003⟩, ⟨0xF00F, 0x8004⟩, ⟨0xF00F, 0x8005⟩, ⟨0xF00F, 0x8006⟩, ⟨0xF00F, 0x8007⟩, ⟨0xF00F, 0x800E⟩,
   ⟨0xF00F, 0x9000⟩]

/-- The mask and match columns of rule R95, rows 20 to 33. -/
def opcodeRowsHigh : List OpcodeRow :=
  [⟨0xF000, 0xA000⟩, ⟨0xF000, 0xB000⟩, ⟨0xF000, 0xC000⟩, ⟨0xF000, 0xD000⟩, ⟨0xF0FF, 0xE09E⟩, ⟨0xF0FF, 0xE0A1⟩,
   ⟨0xF0FF, 0xF007⟩, ⟨0xF0FF, 0xF00A⟩, ⟨0xF0FF, 0xF015⟩, ⟨0xF0FF, 0xF018⟩, ⟨0xF0FF, 0xF029⟩, ⟨0xF0FF, 0xF033⟩,
   ⟨0xF0FF, 0xF055⟩, ⟨0xF0FF, 0xF065⟩]

/-- The 33 rows of rule R95. -/
def opcodeRows : List OpcodeRow := opcodeRowsLow ++ opcodeRowsHigh

/-- The word `op` is an instruction of this row. -/
def OpcodeRow.matches (r : OpcodeRow) (op : Word) : Bool := (op &&& r.mask) == r.pattern

/-- A word is well formed iff it matches a row of rule R95; every other word is an undefined encoding (R96). -/
def wellFormedWord (op : Word) : Bool := opcodeRows.any (fun r => r.matches op)

/-- A program image is well formed iff it fits the program space: `L <= 3584` (R73, R236). -/
def wellFormedImage (bytes : List Byte) : Bool := decide (bytes.length ≤ Config.maxImage)

end Sys2Proof
end

