-- ==== Sys2Proof/Machine/Events.lean ====
section
/-!
DEFINITION. The events other than `step` (spec/00_scope.md R8): `init` (R260), `load` (R73), `tick_timers` (R180), `ackDraw` (R30),
`deinit` (R264).
-/

namespace Sys2Proof.Machine

/-- One timer channel of a tick: decrement if non-zero (R180, R186). -/
def tickTimer (t : Byte) : Byte := if t = 0 then 0 else t - 1

/-- `tick_timers`: both channels, independently, and nothing else; not gated by a fault or a halt (R180). -/
def State.tickTimers (s : State) : State := { s with delay := tickTimer s.delay, sound := tickTimer s.sound }

/-- What a `load` answers (R73, R236). -/
inductive LoadAnswer where
  | ok
  | loadOversize
  deriving DecidableEq, Repr

/-- The answer of `load(bytes, L)`, `L` the length of the bytes (R73). -/
def loadAnswer (bytes : List Byte) : LoadAnswer := if wellFormedImage bytes then .ok else .loadOversize

/-- `load(bytes, L)`: the bytes to `memory[512 .. 512+L)`, or no change at all when `L > 3584` (R73). -/
def State.load (s : State) (bytes : List Byte) : State :=
  if wellFormedImage bytes then s.storeBytes Config.progBase bytes else s

/-- `ackDraw`: `drawRequested <- 0` (R30). -/
def State.ackDraw (s : State) : State := { s with drawRequested := false }

/-- `init` on a used state: every element of the machine and the reference display at its reset value, the parameters as they were fixed
before (R260). The driver's pending
events and the draw counter are the environment's and go on (log entry 28). -/
def State.reinit (s : State) : State := { State.resetWith s.params with events := s.events, draws := s.draws }

/-- One event other than `step` (R8). `deinit` discards the state: "the end of the run" (R264; log entry 14). -/
def State.hostEvent (s : State) (e : HostEvent) : Host.Outcome State Fault Refusal :=
  match e with
  | .init => .next s.reinit
  | .load bytes => .next (s.load bytes)
  | .tickTimers => .next s.tickTimers
  | .ackDraw => .next s.ackDraw
  | .deinit => .fault .deinitialised

end Sys2Proof.Machine
end

