-- ==== Sys2Proof/Decode.lean ====
section
/-!
DEFINITION. The decoder, total on all 65536 words (spec/30_encoding.md rules R90 to R96, spec/40_step_dispatch.md rule R123): a pure
function of the 16 bits, rejecting an undefined word by the name of its group. After it the encoder, written from the same
patterns of rule R95.
-/

namespace Sys2Proof

/-- The six groups of rule R96 that have undefined words, and a byte list that holds no whole word. -/
inductive Undefined where
  /-- a word of group 0 other than `00E0`, `00EE` (the whole word is compared, R94) -/
  | group0
  /-- `5xyN` with `N != 0` -/
  | group5
  /-- `8xyN` with `N` in 8, 9, A, B, C, D, F (R152) -/
  | group8
  /-- `9xyN` with `N != 0` -/
  | group9
  /-- `Exkk` with `kk` neither 9E nor A1 -/
  | groupE
  /-- `Fxkk` with `kk` not in the list of rule R95 (R220) -/
  | groupF
  /-- fewer than two bytes: no instruction word (R90) -/
  | truncated
  deriving DecidableEq, Repr

/-- The group `g = op[15:12]` (R7, R91). -/
def fieldG (op : Word) : Nat := (op.extractLsb' 12 4).toNat

/-- The field `x = op[11:8]` (R7, R91). -/
def fieldX (op : Word) : Reg := (op.extractLsb' 8 4).toFin

/-- The field `y = op[7:4]` (R7, R91). -/
def fieldY (op : Word) : Reg := (op.extractLsb' 4 4).toFin

/-- The field `n = op[3:0]` (R7, R91). -/
def fieldN (op : Word) : BitVec 4 := op.extractLsb' 0 4

/-- The field `kk = op[7:0]` (R7, R91). -/
def fieldKK (op : Word) : Byte := op.extractLsb' 0 8

/-- The field `nnn = op[11:0]` (R7, R91). -/
def fieldNNN (op : Word) : BitVec 12 := op.extractLsb' 0 12

/-- Group 0: the whole word is compared (R94). -/
def decodeGroup0 (op : Word) : Except Undefined Instr :=
  if op = 0x00E0 then .ok .cls else if op = 0x00EE then .ok .ret else .error .group0

/-- Group 8: the low nibble selects among 0 to 7 and E (R94, R140). -/
def decodeGroup8 (x y : Reg) (n : BitVec 4) : Except Undefined Instr :=
  match n.toNat with
  | 0x0 => .ok (.ldReg x y)
  | 0x1 => .ok (.orReg x y)
  | 0x2 => .ok (.andReg x y)
  | 0x3 => .ok (.xorReg x y)
  | 0x4 => .ok (.addReg x y)
  | 0x5 => .ok (.subReg x y)
  | 0x6 => .ok (.shrReg x y)
  | 0x7 => .ok (.subnReg x y)
  | 0xE => .ok (.shlReg x y)
  | _ => .error .group8

/-- Group E: the low byte selects (R94). -/
def decodeGroupE (x : Reg) (kk : Byte) : Except Undefined Instr :=
  match kk.toNat with
  | 0x9E => .ok (.skp x)
  | 0xA1 => .ok (.sknp x)
  | _ => .error .groupE

/-- Group F: the low byte selects (R94). -/
def decodeGroupF (x : Reg) (kk : Byte) : Except Undefined Instr :=
  match kk.toNat with
  | 0x07 => .ok (.ldVxDT x)
  | 0x0A => .ok (.ldVxK x)
  | 0x15 => .ok (.ldDTVx x)
  | 0x18 => .ok (.ldSTVx x)
  | 0x29 => .ok (.ldF x)
  | 0x33 => .ok (.ldB x)
  | 0x55 => .ok (.storeRegs x)
  | 0x65 => .ok (.loadRegs x)
  | _ => .error .groupF

/-- The decoder: first level on `op[15:12]`, second level in groups 0, 5, 8, 9, E, F (R93, R94, R123). -/
def decode (op : Word) : Except Undefined Instr :=
  match fieldG op with
  | 0x0 => decodeGroup0 op
  | 0x1 => .ok (.jp (fieldNNN op))
  | 0x2 => .ok (.call (fieldNNN op))
  | 0x3 => .ok (.seImm (fieldX op) (fieldKK op))
  | 0x4 => .ok (.sneImm (fieldX op) (fieldKK op))
  | 0x5 => if fieldN op = 0 then .ok (.seReg (fieldX op) (fieldY op)) else .error .group5
  | 0x6 => .ok (.ldImm (fieldX op) (fieldKK op))
  | 0x7 => .ok (.addImm (fieldX op) (fieldKK op))
  | 0x8 => decodeGroup8 (fieldX op) (fieldY op) (fieldN op)
  | 0x9 => if fieldN op = 0 then .ok (.sneReg (fieldX op) (fieldY op)) else .error .group9
  | 0xA => .ok (.ldI (fieldNNN op))
  | 0xB => .ok (.jpV0 (fieldNNN op))
  | 0xC => .ok (.rnd (fieldX op) (fieldKK op))
  | 0xD => .ok (.drw (fieldX op) (fieldY op) (fieldN op))
  | 0xE => decodeGroupE (fieldX op) (fieldKK op)
  | _ => decodeGroupF (fieldX op) (fieldKK op)  -- 0xF: `fieldG op` is below 16

/-- The word of two consecutive bytes, high byte first (R64, R66, R90). -/
def wordOfBytes (hi lo : Byte) : Word := hi ++ lo

/-- The decoder on bytes as the memory stores them: the first two bytes are one word, the rest is given back (R90). -/
def decodeBytes (bytes : List Byte) : Except Undefined (Instr × List Byte) :=
  match bytes with
  | hi :: lo :: rest =>
    match decode (wordOfBytes hi lo) with
    | .ok i => .ok (i, rest)
    | .error e => .error e
  | _ => .error .truncated

/-- Format `NNN`: `g nnn` (R91). -/
def formatNNN (g : BitVec 4) (nnn : BitVec 12) : Word := g ++ nnn

/-- Format `XKK`, and format `X` with a fixed low byte: `g x kk` (R91). -/
def formatXKK (g : BitVec 4) (x : Reg) (kk : Byte) : Word := g ++ (BitVec.ofFin (w := 4) x ++ kk)

/-- Format `XYN`, and format `XY` with a fixed low nibble: `g x y n` (R91). -/
def formatXYN (g : BitVec 4) (x y : Reg) (n : BitVec 4) : Word :=
  g ++ (BitVec.ofFin (w := 4) x ++ (BitVec.ofFin (w := 4) y ++ n))

/-- The encoder: the pattern column of rule R95 with the fields put in. -/
def encode (i : Instr) : Word :=
  match i with
  | .cls => 0x00E0
  | .ret => 0x00EE
  | .jp nnn => formatNNN 0x1 nnn
  | .call nnn => formatNNN 0x2 nnn
  | .seImm x kk => formatXKK 0x3 x kk
  | .sneImm x kk => formatXKK 0x4 x kk
  | .seReg x y => formatXYN 0x5 x y 0x0
  | .ldImm x kk => formatXKK 0x6 x kk
  | .addImm x kk => formatXKK 0x7 x kk
  | .ldReg x y => formatXYN 0x8 x y 0x0
  | .orReg x y => formatXYN 0x8 x y 0x1
  | .andReg x y => formatXYN 0x8 x y 0x2
  | .xorReg x y => formatXYN 0x8 x y 0x3
  | .addReg x y => formatXYN 0x8 x y 0x4
  | .subReg x y => formatXYN 0x8 x y 0x5
  | .shrReg x y => formatXYN 0x8 x y 0x6
  | .subnReg x y => formatXYN 0x8 x y 0x7
  | .shlReg x y => formatXYN 0x8 x y 0xE
  | .sneReg x y => formatXYN 0x9 x y 0x0
  | .ldI nnn => formatNNN 0xA nnn
  | .jpV0 nnn => formatNNN 0xB nnn
  | .rnd x kk => formatXKK 0xC x kk
  | .drw x y n => formatXYN 0xD x y n
  | .skp x => formatXKK 0xE x 0x9E
  | .sknp x => formatXKK 0xE x 0xA1
  | .ldVxDT x => formatXKK 0xF x 0x07
  | .ldVxK x => formatXKK 0xF x 0x0A
  | .ldDTVx x => formatXKK 0xF x 0x15
  | .ldSTVx x => formatXKK 0xF x 0x18
  | .ldF x => formatXKK 0xF x 0x29
  | .ldB x => formatXKK 0xF x 0x33
  | .storeRegs x => formatXKK 0xF x 0x55
  | .loadRegs x => formatXKK 0xF x 0x65

/-- The high byte of a word, the one at the lower address (R66). -/
def highByte (op : Word) : Byte := op.extractLsb' 8 8

/-- The low byte of a word, the one at the higher address (R66). -/
def lowByte (op : Word) : Byte := op.extractLsb' 0 8

/-- The two bytes of a word as the memory stores them (R66). -/
def bytesOfWord (op : Word) : List Byte := [highByte op, lowByte op]

/-- The word whose bits, numbered as spec/opcode_table.json numbers them, are `w`; the bits at and above `nbits` are 0. -/
def tableWord (nbits w : Nat) : Word := BitVec.ofNat 16 (w % 2 ^ nbits)

/-- The instruction the decoder reads from the bytes of that word, laid out in memory order. -/
def decodeTableWord (nbits w : Nat) : Option Instr :=
  match decodeBytes (bytesOfWord (tableWord nbits w)) with
  | .ok (i, _) => some i
  | .error _ => none

end Sys2Proof
end

