-- ==== Sys2Proof/Machine/Operands.lean ====
section
/-!
DEFINITION. The operand forms: the low nibble of a register, the font address, BCD digits, the block V[0..=x], the checked range
`memory[I .. I+n)`, the pixels of a sprite (spec/45_sprite_memory.md R212 to R219, spec/44_keyboard.md R201,
spec/20_memory.md R63, R64, R74).
-/

namespace Sys2Proof.Machine

/-- `v[3:0]`, the key index of R201 and the digit of R215. -/
def lowNibble (b : Byte) : Key := (b.extractLsb' 0 4).toFin

/-- `5 · V[x][3:0]`, the address of a glyph (R215). -/
def glyphAddress (b : Byte) : Word := BitVec.ofNat 16 (5 * (lowNibble b).val)

/-- The decimal digits of a byte: hundreds, tens, units (R216). -/
def bcdDigits (b : Byte) : List Byte := [trunc8 (b.toNat / 100), trunc8 (b.toNat / 10 % 10), trunc8 (b.toNat % 10)]

/-- The registers `V[0..=x]`, `V[0]` first (R217). -/
def State.regBlock (s : State) (x : Reg) : List Byte := s.v.toList.take (x.val + 1)

/-- The registers after `V[k] <- memory[a + k]` for `k` in `0..x` (R218). -/
def State.loadBlock (s : State) (x : Reg) (a : Nat) : Vector Byte 16 :=
  Vector.ofFn (fun k : Fin 16 => if k ≤ x then s.byteAt (a + k.val) else s.getV k)

/-- The lowest address above 4095 of the `count` bytes from `base`, if there is one; the sum is a natural number (R74, R219). -/
def outOfRange? (base count : Nat) : Option Nat :=
  if 0 < count ∧ base + (count - 1) > 4095 then some (max base 4096) else none

/-- An instruction that touches `memory[I .. I+count)`: the whole range is checked before the first access, and an instruction out of
range raises `DataAddressFault` and does nothing else (R63, R219, R234, R240). The word is `encode i` (log entry 31). -/
def State.accessing (s : State) (i : Instr) (count : Nat) (body : State) : State :=
  match outOfRange? s.i.toNat count with
  | some a => s.raise .dataAddressFault (encode i) a
  | none => body

/-- The instruction word at `memory[PC]`, `memory[PC+1]`, high byte first; `none` when `PC > 4094` (R64, R122). -/
def State.fetch? (s : State) : Option Word :=
  if s.pc.toNat > 4094 then none else some (wordOfBytes (s.byteAt s.pc.toNat) (s.byteAt (s.pc.toNat + 1)))

/-- `FetchAddressFault`: the word is 0, the address is `PC` if `PC > 4095`, else 4096 (R64, R231). -/
def State.raiseFetch (s : State) : State :=
  s.raise .fetchAddressFault 0 (if s.pc.toNat > 4095 then s.pc.toNat else 4096)

/-- The pixel at a row and a column, each reduced on its own (R212). -/
def wrapPixel (p : Parameters) (row col : Nat) : Pixel := { row := row % p.screenH, col := col % p.screenW }

/-- The pixels one sprite byte toggles, left to right; bit 7 is the leftmost (R212; PRESUMED, log entry 6: unsafe). -/
def rowPixels (p : Parameters) (b : Byte) (row col0 : Nat) : List Pixel :=
  (List.range 8).filterMap (fun c => if b.getLsbD (7 - c) then some (wrapPixel p row (col0 + c)) else none)

/-- The pixels an `n`-row sprite at `memory[a .. a+n)` toggles, row by row, from row `vy`, column `vx`; a small screen can bring one of
them twice (R212). -/
def State.spritePixels (s : State) (a n : Nat) (vx vy : Byte) : List Pixel :=
  (List.range n).flatMap (fun r =>
    rowPixels s.params (s.byteAt (a + r)) (vy.toNat % s.params.screenH + r) (vx.toNat % s.params.screenW))

end Sys2Proof.Machine
end

