-- ==== Sys2Proof/Machine/Keys.lean ====
section
/-!
DEFINITION. The keyboard block (spec/44_keyboard.md rules R190 to R202): the poll, and the instructions `Ex9E`, `ExA1`, `Fx0A`.
-/

namespace Sys2Proof.Machine

/-- One key of the poll, in each of the two sampling modes (R191). The latch write precedes the enqueue and does not depend on it
(R192). -/
def Keyboard.pollKey (mode : KeySampleMode) (down : Vector Bool 16) (k : Keyboard) (key : Key) : Keyboard :=
  match mode with
  | .edge =>
    let k' := if down[key.val] && !k.keyPrev[key.val] then (k.setLatch key true).enqueue key else k
    { k' with keyPrev := k'.keyPrev.set key.val down[key.val] }
  | .level => if down[key.val] then (k.setLatch key true).enqueue key else k

/-- `poll_keys()`: the 16 keys in ascending order (R191). -/
def Keyboard.poll (mode : KeySampleMode) (down : Vector Bool 16) (k : Keyboard) : Keyboard :=
  (List.finRange 16).foldl (Keyboard.pollKey mode down) k

/-- Phase 2 of a step, with the answers latched in `input` (R120, R191). -/
def State.poll (s : State) : State := { s with kbd := s.kbd.poll keySampleMode s.input.keysDown }

/-- `Ex9E`: if the latch of key `V[x][3:0]` is set, clear it and skip; else do not skip (R194, R201). -/
def execSkp (x : Reg) (s : State) : Host.Outcome State Fault Refusal :=
  .next (({ s with kbd := s.kbd.setLatch (lowNibble (s.getV x)) false } : State).skipIf
    (s.kbd.latched (lowNibble (s.getV x))))

/-- `ExA1`: if the latch is set, clear it and do not skip; else skip (R195, R201). -/
def execSknp (x : Reg) (s : State) : Host.Outcome State Fault Refusal :=
  .next (({ s with kbd := s.kbd.setLatch (lowNibble (s.getV x)) false } : State).skipIf
    (!s.kbd.latched (lowNibble (s.getV x))))

/-- The queue branch of `Fx0A`: the oldest event to `V[x]`, no latch touched (R196, R200). -/
def State.deliverQueued (s : State) (x : Reg) : State :=
  (({ s with kbd := s.kbd.dequeue.2 } : State).setV x (BitVec.ofNat 8 s.kbd.dequeue.1.val)).advanceNext

/-- The blocking branch of `Fx0A` (R197, R198): a key goes to `V[x]` alone; `quit` sets `haltRequested`, leaves `PC` and gives
`V[x]` a free value; with no answer yet nothing changes but the model's own mark that the step is blocked (log entry 13). -/
def State.blockingRead (s : State) (x : Reg) : State :=
  match s.input.keyAnswer with
  | some (.key k) => (s.setV x (BitVec.ofNat 8 k.val)).advanceNext
  | some .quit => { s.setV x s.input.quitByte with haltRequested := true }
  | none => { s with waiting := true }

/-- `Fx0A` (R196 to R198). -/
def execLdVxK (x : Reg) (s : State) : Host.Outcome State Fault Refusal :=
  .next (if s.kbd.qCount.val > 0 then s.deliverQueued x else s.blockingRead x)

end Sys2Proof.Machine
end

