-- ==== Sys2Proof/Machine/Cycle.lean ====
section
/-!
DEFINITION. The phases of the step cycle before an instruction runs (spec/40_step_dispatch.md rules R120 to R126): which event comes
next, the gate, the collaborators' answers, the poll, the decode error.
-/

namespace Sys2Proof.Machine

/-- The driver's next event when it is not a `step`, with the rest pending. While a step is blocked in `Fx0A` no event can occur
(R8, R126, R197). -/
def State.nextHostEvent? (s : State) : Option (HostEvent × State) :=
  match s.waiting, s.events with
  | false, .host e :: rest => some (e, { s with events := rest })
  | _, _ => none

/-- The run is over: `fault != None` or `haltRequested == 1` (R121). -/
def State.gated (s : State) : Bool := decide (s.fault ≠ .noFault) || s.haltRequested

/-- The pending `step` event (or an answer nobody waits for) is used up; nothing else changes. -/
def State.dropEvent (s : State) : State :=
  match s.events with
  | .step _ :: rest => { s with events := rest }
  | .answer _ :: rest => { s with events := rest }
  | _ => s

/-- The answers the collaborators give to a new step: those of a pending `step` event, else fresh free values (R127; log entries 7
to 12). -/
def State.takeInput (s : State) : State :=
  match s.events with
  | .step input :: rest => { s with input := input, events := rest }
  | _ => { s.dropEvent with input := StepInput.free s.draws, draws := s.draws + 1 }

/-- The next look at `blockingReadKey` of a blocked step: a pending answer, else a free value. No poll, no other draw: the step has
not ended (R126, R197). -/
def State.takeAnswer (s : State) : State :=
  match s.events with
  | .answer a :: rest => { s with input := { s.input with keyAnswer := a }, events := rest }
  | _ => { s with input := { s.input with keyAnswer := Config.keyAnswer s.draws }, draws := s.draws + 1 }

/-- Phase 2: a new step takes its answers and polls; a blocked step goes on where it was, its poll done (R120, R126). -/
def State.beginStep (s : State) : State :=
  if s.waiting then { s.takeAnswer with waiting := false } else s.takeInput.poll

/-- The decode error: `pc <- pc + 2`, no other state changes (R124). -/
def State.decodeErrorStep (s : State) : State := s.advance decodeErrorPcAdvance

/-- `s` with the two bytes of a word stored at `memory[PC]`, `memory[PC+1]`. -/
def State.placeWord (s : State) (op : Word) : State :=
  s.storeBytes s.pc.toNat (bytesOfWord op)

/-- `s` ready to fetch in the very next step: not gated, not blocked, no event pending, the `PC` in memory. -/
def State.readyToFetch (s : State) : State :=
  { s with fault := .noFault, haltRequested := false, waiting := false, events := [],
           pc := if s.pc.toNat > 4094 then BitVec.ofNat 16 Config.progBase else s.pc }

end Sys2Proof.Machine
end

