-- ==== Sys2Proof/Machine/Flags.lean ====
section
/-!
DEFINITION. The ALU and the flag VF (spec/41_arithmetic.md rules R140, R153; spec/10_state.md R22): exact sums on natural numbers,
narrowed at the end.
-/

namespace Sys2Proof.Machine

/-- The defined function codes of rule R140. -/
inductive AluOp where
  | copy
  | bitOr
  | bitAnd
  | bitXor
  | add
  | sub
  | shr
  | subn
  | shl
  deriving DecidableEq, Repr

/-- `(a - b) mod 256` (R140). -/
def subMod (a b : Byte) : Byte := trunc8 (a.toNat + 256 - b.toNat)

/-- `alu(f, a, b) -> (r, flag)`, with `a = V[x]` and `b = V[y]` (R140). -/
def alu (f : AluOp) (a b : Byte) : Byte × Option Bool :=
  match f with
  | .copy => (b, none)
  | .bitOr => (a ||| b, none)
  | .bitAnd => (a &&& b, none)
  | .bitXor => (a ^^^ b, none)
  | .add => (trunc8 (a.toNat + b.toNat), some (decide (a.toNat + b.toNat > 255)))
  | .sub => (subMod a b, some (decide (a.toNat ≥ b.toNat)))
  | .shr => (trunc8 (b.toNat / 2), some (b.getLsbD 0))
  | .subn => (subMod b a, some (decide (b.toNat ≥ a.toNat)))
  | .shl => (trunc8 (2 * b.toNat), some (b.getLsbD 7))

/-- `V[0xF] <- zext_8(flag)` where the function has a flag, else VF is left alone (R22, R140). -/
def State.setFlag (s : State) (flag : Option Bool) : State :=
  match flag with
  | none => s
  | some c => s.setV vf (flagByte c)

/-- A register-to-register ALU instruction: both operands read, then `V[x] <- r`, then the flag, then `pc + 2` (R153). -/
def State.aluStep (s : State) (f : AluOp) (x y : Reg) : State :=
  (((s.setV x (alu f (s.getV x) (s.getV y)).1).setFlag (alu f (s.getV x) (s.getV y)).2)).advanceNext

end Sys2Proof.Machine
end

