-- ==== Sys2Proof/Machine/Arithmetic.lean ====
section
/-!
DEFINITION. The arithmetic and register family (spec/41_arithmetic.md rules R141 to R153): `6xkk`, `7xkk`, `8xy0` to `8xy7`, `8xyE`.
None can raise a fault.
-/

namespace Sys2Proof.Machine

/-- `6xkk`: `V[x] <- kk` (R141). -/
def execLdImm (x : Reg) (kk : Byte) (s : State) : Host.Outcome State Fault Refusal := .next (s.setV x kk).advanceNext

/-- `7xkk`: `V[x] <- trunc8(V[x] + kk)`, no flag (R142). -/
def execAddImm (x : Reg) (kk : Byte) (s : State) : Host.Outcome State Fault Refusal :=
  .next (s.setV x (trunc8 ((s.getV x).toNat + kk.toNat))).advanceNext

/-- `8xy0`: copy (R143). -/
def execLdReg (x y : Reg) (s : State) : Host.Outcome State Fault Refusal := .next (s.aluStep .copy x y)

/-- `8xy1`: OR, no flag (R144). -/
def execOrReg (x y : Reg) (s : State) : Host.Outcome State Fault Refusal := .next (s.aluStep .bitOr x y)

/-- `8xy2`: AND, no flag (R145). -/
def execAndReg (x y : Reg) (s : State) : Host.Outcome State Fault Refusal := .next (s.aluStep .bitAnd x y)

/-- `8xy3`: XOR, no flag (R146). -/
def execXorReg (x y : Reg) (s : State) : Host.Outcome State Fault Refusal := .next (s.aluStep .bitXor x y)

/-- `8xy4`: add, VF = carry (R147). -/
def execAddReg (x y : Reg) (s : State) : Host.Outcome State Fault Refusal := .next (s.aluStep .add x y)

/-- `8xy5`: subtract, VF = no borrow (R148). -/
def execSubReg (x y : Reg) (s : State) : Host.Outcome State Fault Refusal := .next (s.aluStep .sub x y)

/-- `8xy6`: `V[x] <- V[y] >> 1`, VF = bit 0 of the source (R149). -/
def execShrReg (x y : Reg) (s : State) : Host.Outcome State Fault Refusal := .next (s.aluStep .shr x y)

/-- `8xy7`: reverse subtract, VF = no borrow (R150). -/
def execSubnReg (x y : Reg) (s : State) : Host.Outcome State Fault Refusal := .next (s.aluStep .subn x y)

/-- `8xyE`: `V[x] <- V[y] << 1`, VF = bit 7 of the source (R151). -/
def execShlReg (x y : Reg) (s : State) : Host.Outcome State Fault Refusal := .next (s.aluStep .shl x y)

end Sys2Proof.Machine
end

