-- ==== Sys2Proof/Machine/Control.lean ====
section
/-!
DEFINITION. Control flow and the stack (spec/42_control_flow.md rules R160 to R171): `00E0`, `00EE`, `1nnn`, `2nnn`, `3xkk`, `4xkk`,
`5xy0`, `9xy0`, `Bnnn`. None writes VF.
-/

namespace Sys2Proof.Machine

/-- `00E0`: clear the display, raise `drawRequested` (R160). -/
def execCls (s : State) : Host.Outcome State Fault Refusal :=
  .next { s.clearDisplay with drawRequested := true, pc := s.pc + 2 }

/-- The state after `00EE`: `pc <- pop()`, or `StackUnderflow` (R161, R233). -/
def State.returnStep (s : State) : State :=
  match s.pop? with
  | some (target, t) => { t with pc := target }
  | none => s.raise .stackUnderflow (encode .ret) 0

/-- `00EE` (R161). -/
def execRet (s : State) : Host.Outcome State Fault Refusal := .next s.returnStep

/-- `1nnn`: `pc <- zext_16(nnn)` (R162). -/
def execJp (nnn : BitVec 12) (s : State) : Host.Outcome State Fault Refusal := .next { s with pc := zext16 nnn }

/-- The state after `2nnn`: `push(pc + 2)`, then `pc <- nnn`, or `StackOverflow` (R163, R232). -/
def State.callStep (s : State) (nnn : BitVec 12) : State :=
  match s.push? (s.pc + 2) with
  | some t => { t with pc := zext16 nnn }
  | none => s.raise .stackOverflow (encode (.call nnn)) 0

/-- `2nnn` (R163). -/
def execCall (nnn : BitVec 12) (s : State) : Host.Outcome State Fault Refusal := .next (s.callStep nnn)

/-- `3xkk`: skip if `V[x] == kk` (R164, R169). -/
def execSeImm (x : Reg) (kk : Byte) (s : State) : Host.Outcome State Fault Refusal :=
  .next (s.skipIf (decide (s.getV x = kk)))

/-- `4xkk`: skip if `V[x] != kk` (R165, R169). -/
def execSneImm (x : Reg) (kk : Byte) (s : State) : Host.Outcome State Fault Refusal :=
  .next (s.skipIf (decide (s.getV x ≠ kk)))

/-- `5xy0`: skip if `V[x] == V[y]` (R166, R169). -/
def execSeReg (x y : Reg) (s : State) : Host.Outcome State Fault Refusal :=
  .next (s.skipIf (decide (s.getV x = s.getV y)))

/-- `9xy0`: skip if `V[x] != V[y]` (R167, R169). -/
def execSneReg (x y : Reg) (s : State) : Host.Outcome State Fault Refusal :=
  .next (s.skipIf (decide (s.getV x ≠ s.getV y)))

/-- `Bnnn`: `pc <- zext_16(V[0]) + zext_16(nnn)` (R168). -/
def execJpV0 (nnn : BitVec 12) (s : State) : Host.Outcome State Fault Refusal :=
  .next { s with pc := zext16 (s.getV 0) + zext16 nnn }

end Sys2Proof.Machine
end

