-- ==== Sys2Proof/Machine/Sprite.lean ====
section
/-!
DEFINITION. Index register, random, sprite draw and memory operations (spec/45_sprite_memory.md rules R210 to R219): `Annn`, `Cxkk`,
`Dxyn`, `Fx29`, `Fx33`, `Fx55`, `Fx65`. `I` is never modified by an access (R219).
-/

namespace Sys2Proof.Machine

/-- `Annn`: `I <- zext_16(nnn)` (R210). -/
def execLdI (nnn : BitVec 12) (s : State) : Host.Outcome State Fault Refusal :=
  .next ({ s with i := zext16 nnn } : State).advanceNext

/-- `Cxkk`: `V[x] <- r AND kk`, `r` the free byte of this step (R211; log entry 7). -/
def execRnd (x : Reg) (kk : Byte) (s : State) : Host.Outcome State Fault Refusal :=
  .next (s.setV x (s.input.randomByte &&& kk)).advanceNext

/-- The effect of an in-range `Dxyn`: the toggles, then `V[0xF] <- collision`, `drawRequested <- 1`, `pc + 2` (R212). -/
def State.drawStep (s : State) (x y : Reg) (n : Nat) : State :=
  let result := Display.toggleAll s.display (s.spritePixels s.i.toNat n (s.getV x) (s.getV y)) false
  ({ s.setV vf (flagByte result.1) with display := result.2, drawRequested := true } : State).advanceNext

/-- `Dxyn`: with `n = 0` no byte is read and nothing can fault (R212). -/
def execDrw (x y : Reg) (n : BitVec 4) (s : State) : Host.Outcome State Fault Refusal :=
  .next (s.accessing (.drw x y n) n.toNat (s.drawStep x y n.toNat))

/-- `Fx29`: `I <- 5 · V[x][3:0]` (R215). -/
def execLdF (x : Reg) (s : State) : Host.Outcome State Fault Refusal :=
  .next ({ s with i := glyphAddress (s.getV x) } : State).advanceNext

/-- `Fx33`: the BCD digits of `V[x]` to `memory[I..I+3)` (R216). -/
def execLdB (x : Reg) (s : State) : Host.Outcome State Fault Refusal :=
  .next (s.accessing (.ldB x) 3
    (s.storeBytes s.i.toNat (bcdDigits (s.getV x))).advanceNext)

/-- `Fx55`: `V[0..=x]` to `memory[I .. I+x+1)` (R217). -/
def execStoreRegs (x : Reg) (s : State) : Host.Outcome State Fault Refusal :=
  .next (s.accessing (.storeRegs x) (x.val + 1)
    (s.storeBytes s.i.toNat (s.regBlock x)).advanceNext)

/-- `Fx65`: `memory[I .. I+x+1)` to `V[0..=x]` (R218). -/
def execLoadRegs (x : Reg) (s : State) : Host.Outcome State Fault Refusal :=
  .next (s.accessing (.loadRegs x) (x.val + 1) ({ s with v := s.loadBlock x s.i.toNat } : State).advanceNext)

end Sys2Proof.Machine
end

