-- ==== Sys2Proof/Machine/Timers.lean ====
section
/-!
DEFINITION. The timer instructions (spec/43_timers.md rules R181 to R184): `Fx07`, `Fx15`, `Fx18`. The tick itself is the host event
of Machine/Events.lean.
-/

namespace Sys2Proof.Machine

/-- `Fx07`: `V[x] <- delay` (R181). -/
def execLdVxDT (x : Reg) (s : State) : Host.Outcome State Fault Refusal := .next (s.setV x s.delay).advanceNext

/-- `Fx15`: `delay <- V[x]` (R182). -/
def execLdDTVx (x : Reg) (s : State) : Host.Outcome State Fault Refusal :=
  .next ({ s with delay := s.getV x } : State).advanceNext

/-- `Fx18`: `sound <- V[x]` (R183). -/
def execLdSTVx (x : Reg) (s : State) : Host.Outcome State Fault Refusal :=
  .next ({ s with sound := s.getV x } : State).advanceNext

end Sys2Proof.Machine
end

