-- ==== Sys2Proof/Machine/Step.lean ====
section
/-!
DEFINITION. One transition of the machine (spec/00_scope.md R8, spec/40_step_dispatch.md R120, R121): the driver's next event, and
when it is a `step`, the step cycle.
-/

namespace Sys2Proof.Machine

/-- Phases 3 to 7 of a step, after the poll: fetch, decode, execute (R120). -/
def fetchAndRun (s : State) : Host.Outcome State Fault Refusal :=
  match s.fetch? with
  | none => .next s.raiseFetch
  | some op =>
    match decode op with
    | .error _ => .next s.decodeErrorStep
    | .ok i => exec i s

/-- The `step` event: gate, poll, then the rest (R120, R121). -/
def stepEvent (s : State) : Host.Outcome State Fault Refusal :=
  if s.gated then .next s.dropEvent else fetchAndRun s.beginStep

/-- One transition: a pending event other than `step`, or a `step` event (R8). -/
def step (s : State) : Host.Outcome State Fault Refusal :=
  match s.nextHostEvent? with
  | some (e, t) => t.hostEvent e
  | none => stepEvent s

/-- `s` with the instruction whose table bits are `w` stored where the next step fetches it (log entry 12). -/
def State.withFetchWord (s : State) (nbits w : Nat) : State := s.readyToFetch.placeWord (tableWord nbits w)

end Sys2Proof.Machine
end

