-- ==== Sys2Proof/Laws/Encoding.lean ====
section
/-!
SUPPORT. The encoding read as numbers: what a format's word is, what each field of a word is, and each field of each format.
-/

namespace Sys2Proof

/-- Concatenation as arithmetic: the left operand in the high bits (R5). -/
theorem append_toNat {v w : Nat} (a : BitVec v) (b : BitVec w) : (a ++ b).toNat = a.toNat * 2 ^ w + b.toNat := by
  rw [BitVec.toNat_append, ← Nat.shiftLeft_add_eq_or_of_lt b.isLt, Nat.shiftLeft_eq]

theorem formatNNN_toNat (g : BitVec 4) (nnn : BitVec 12) : (formatNNN g nnn).toNat = g.toNat * 4096 + nnn.toNat :=
  append_toNat g nnn

theorem formatXKK_toNat (g : BitVec 4) (x : Reg) (kk : Byte) :
    (formatXKK g x kk).toNat = g.toNat * 4096 + x.val * 256 + kk.toNat := by
  refine (append_toNat g (BitVec.ofFin (w := 4) x ++ kk)).trans ?_
  rw [append_toNat, show (BitVec.ofFin (w := 4) x).toNat = x.val from rfl]
  omega

theorem formatXYN_toNat (g : BitVec 4) (x y : Reg) (n : BitVec 4) :
    (formatXYN g x y n).toNat = g.toNat * 4096 + x.val * 256 + y.val * 16 + n.toNat := by
  refine (append_toNat g (BitVec.ofFin (w := 4) x ++ (BitVec.ofFin (w := 4) y ++ n))).trans ?_
  rw [append_toNat, append_toNat, show (BitVec.ofFin (w := 4) x).toNat = x.val from rfl,
    show (BitVec.ofFin (w := 4) y).toNat = y.val from rfl]
  omega

/-! ### The fields of a word (R7, R91) -/

theorem fieldG_eq (op : Word) : fieldG op = op.toNat / 4096 := by
  have h := op.isLt
  simp only [fieldG, BitVec.extractLsb'_toNat, Nat.shiftRight_eq_div_pow]
  omega

theorem fieldX_val (op : Word) : (fieldX op).val = op.toNat / 256 % 16 := by
  simp [fieldX, Nat.shiftRight_eq_div_pow]

theorem fieldY_val (op : Word) : (fieldY op).val = op.toNat / 16 % 16 := by
  simp [fieldY, Nat.shiftRight_eq_div_pow]

theorem fieldN_toNat (op : Word) : (fieldN op).toNat = op.toNat % 16 := by
  simp [fieldN]

theorem fieldKK_toNat (op : Word) : (fieldKK op).toNat = op.toNat % 256 := by
  simp [fieldKK]

theorem fieldNNN_toNat (op : Word) : (fieldNNN op).toNat = op.toNat % 4096 := by
  simp [fieldNNN]

/-! ### The fields of each format -/

theorem fieldG_formatNNN (g : BitVec 4) (nnn : BitVec 12) : fieldG (formatNNN g nnn) = g.toNat := by
  have := nnn.isLt
  rw [fieldG_eq, formatNNN_toNat]
  omega

theorem fieldNNN_formatNNN (g : BitVec 4) (nnn : BitVec 12) : fieldNNN (formatNNN g nnn) = nnn := by
  have := nnn.isLt
  apply BitVec.eq_of_toNat_eq
  rw [fieldNNN_toNat, formatNNN_toNat]
  omega

theorem fieldG_formatXKK (g : BitVec 4) (x : Reg) (kk : Byte) : fieldG (formatXKK g x kk) = g.toNat := by
  have := kk.isLt
  rw [fieldG_eq, formatXKK_toNat]
  omega

theorem fieldX_formatXKK (g : BitVec 4) (x : Reg) (kk : Byte) : fieldX (formatXKK g x kk) = x := by
  have := kk.isLt
  apply Fin.ext
  rw [fieldX_val, formatXKK_toNat]
  omega

theorem fieldKK_formatXKK (g : BitVec 4) (x : Reg) (kk : Byte) : fieldKK (formatXKK g x kk) = kk := by
  have := kk.isLt
  apply BitVec.eq_of_toNat_eq
  rw [fieldKK_toNat, formatXKK_toNat]
  omega

theorem fieldG_formatXYN (g : BitVec 4) (x y : Reg) (n : BitVec 4) : fieldG (formatXYN g x y n) = g.toNat := by
  have := n.isLt
  rw [fieldG_eq, formatXYN_toNat]
  omega

theorem fieldX_formatXYN (g : BitVec 4) (x y : Reg) (n : BitVec 4) : fieldX (formatXYN g x y n) = x := by
  have := n.isLt
  apply Fin.ext
  rw [fieldX_val, formatXYN_toNat]
  omega

theorem fieldY_formatXYN (g : BitVec 4) (x y : Reg) (n : BitVec 4) : fieldY (formatXYN g x y n) = y := by
  have := n.isLt
  apply Fin.ext
  rw [fieldY_val, formatXYN_toNat]
  omega

theorem fieldN_formatXYN (g : BitVec 4) (x y : Reg) (n : BitVec 4) : fieldN (formatXYN g x y n) = n := by
  have := n.isLt
  apply BitVec.eq_of_toNat_eq
  rw [fieldN_toNat, formatXYN_toNat]
  omega

/-! ### The masks of rule R95 -/

/-- The mask 0xF000 keeps the top nibble. -/
theorem mask_group_toNat (op : Word) : (op &&& 0xF000#16).toNat = op.toNat / 4096 * 4096 := by
  have h := op.isLt
  have e : op &&& 0xF000#16 = (op >>> 12) <<< 12 := by
    ext k hk
    simp
    interval_cases k <;> simp
  rw [e, BitVec.toNat_shiftLeft, BitVec.toNat_ushiftRight, Nat.shiftRight_eq_div_pow, Nat.shiftLeft_eq]
  omega

/-- The mask of the top nibble and the low `j` bits, for `j` at most 8: 0xF00F for 4, 0xF0FF for 8. -/
theorem mask_groupLow_toNat (op : Word) {j : Nat} (hj : j ≤ 8) :
    (op &&& (0xF000#16 ||| BitVec.ofNat 16 (2 ^ j - 1))).toNat = op.toNat / 4096 * 4096 + op.toNat % 2 ^ j := by
  have hp : 2 ^ j ≤ 2 ^ 8 := Nat.pow_le_pow_right (by decide) hj
  have hm : op.toNat % 2 ^ j < 2 ^ 12 := lt_of_lt_of_le (Nat.mod_lt _ (Nat.two_pow_pos j)) (le_trans hp (by decide))
  have e : op &&& (0xF000#16 ||| BitVec.ofNat 16 (2 ^ j - 1)) =
      (op &&& 0xF000#16) ||| (op &&& BitVec.ofNat 16 (2 ^ j - 1)) := by
    ext
    simp [Bool.and_or_distrib_left]
  have h2 : (op &&& BitVec.ofNat 16 (2 ^ j - 1)).toNat = op.toNat % 2 ^ j := by
    rw [BitVec.toNat_and, BitVec.toNat_ofNat, Nat.mod_eq_of_lt (by omega), Nat.and_two_pow_sub_one_eq_mod]
  rw [e, BitVec.toNat_or, mask_group_toNat, h2,
    show op.toNat / 4096 * 4096 = (op.toNat / 4096) <<< 12 by rw [Nat.shiftLeft_eq], ← Nat.shiftLeft_add_eq_or_of_lt hm]

/-- A word that matches a row of rule R95 is well formed. -/
theorem wellFormedWord_of_row {r : OpcodeRow} (h : r ∈ opcodeRows) {op : Word} (e : op &&& r.mask = r.pattern) :
    wellFormedWord op = true := by
  simp only [wellFormedWord, List.any_eq_true]
  exact ⟨r, h, by simp [OpcodeRow.matches, e]⟩

end Sys2Proof
end

