-- ==== Sys2Proof/Laws/PerInstr.lean ====
section
/-!
SUPPORT. The family EncodedWord, one lemma per constructor: the word the encoder gives an instruction matches a row of rule R95, so it
is a well-formed word.
-/

namespace Sys2Proof

/-- The encoder's word is well formed: it matches a row of the opcode table (R95). -/
def Laws.EncodedWord.Statement (i : Instr) : Prop := wellFormedWord (encode i) = true

/-- Format NNN words match the row with the mask 0xF000. -/
theorem formatNNN_row (g : BitVec 4) (nnn : BitVec 12) (p : Word) (hp : p.toNat = g.toNat * 4096) :
    formatNNN g nnn &&& 0xF000 = p := by
  have := nnn.isLt
  apply BitVec.eq_of_toNat_eq
  refine (mask_group_toNat _).trans ?_
  rw [formatNNN_toNat, hp]
  omega

/-- Format XKK words match the row with the mask 0xF000. -/
theorem formatXKK_row (g : BitVec 4) (x : Reg) (kk : Byte) (p : Word) (hp : p.toNat = g.toNat * 4096) :
    formatXKK g x kk &&& 0xF000 = p := by
  have := kk.isLt
  apply BitVec.eq_of_toNat_eq
  refine (mask_group_toNat _).trans ?_
  rw [formatXKK_toNat, hp]
  omega

/-- Format X words match the row with the mask 0xF0FF. -/
theorem formatX_row (g : BitVec 4) (x : Reg) (kk : Byte) (p : Word) (hp : p.toNat = g.toNat * 4096 + kk.toNat) :
    formatXKK g x kk &&& 0xF0FF = p := by
  have := kk.isLt
  apply BitVec.eq_of_toNat_eq
  refine (mask_groupLow_toNat _ (le_refl 8)).trans ?_
  rw [formatXKK_toNat, hp]
  omega

/-- Format XY words match the row with the mask 0xF00F. -/
theorem formatXY_row (g : BitVec 4) (x y : Reg) (n : BitVec 4) (p : Word) (hp : p.toNat = g.toNat * 4096 + n.toNat) :
    formatXYN g x y n &&& 0xF00F = p := by
  have := n.isLt
  apply BitVec.eq_of_toNat_eq
  refine (mask_groupLow_toNat _ (show 4 ≤ 8 by decide)).trans ?_
  rw [formatXYN_toNat, hp]
  omega

/-- Format XYN words match the row with the mask 0xF000. -/
theorem formatXYN_row (g : BitVec 4) (x y : Reg) (n : BitVec 4) (p : Word) (hp : p.toNat = g.toNat * 4096) :
    formatXYN g x y n &&& 0xF000 = p := by
  have := n.isLt
  apply BitVec.eq_of_toNat_eq
  refine (mask_group_toNat _).trans ?_
  rw [formatXYN_toNat, hp]
  omega

theorem Laws.EncodedWord.cls : Laws.EncodedWord.Statement .cls :=
  wellFormedWord_of_row (r := ⟨0xFFFF, 0x00E0⟩) (by decide)
    (by decide)

theorem Laws.EncodedWord.ret : Laws.EncodedWord.Statement .ret :=
  wellFormedWord_of_row (r := ⟨0xFFFF, 0x00EE⟩) (by decide)
    (by decide)

theorem Laws.EncodedWord.jp (nnn : BitVec 12) : Laws.EncodedWord.Statement (.jp nnn) :=
  wellFormedWord_of_row (r := ⟨0xF000, 0x1000⟩) (by decide)
    (formatNNN_row 0x1 nnn 0x1000 rfl)

theorem Laws.EncodedWord.call (nnn : BitVec 12) : Laws.EncodedWord.Statement (.call nnn) :=
  wellFormedWord_of_row (r := ⟨0xF000, 0x2000⟩) (by decide)
    (formatNNN_row 0x2 nnn 0x2000 rfl)

theorem Laws.EncodedWord.seImm (x : Reg) (kk : Byte) : Laws.EncodedWord.Statement (.seImm x kk) :=
  wellFormedWord_of_row (r := ⟨0xF000, 0x3000⟩) (by decide)
    (formatXKK_row 0x3 x kk 0x3000 rfl)

theorem Laws.EncodedWord.sneImm (x : Reg) (kk : Byte) : Laws.EncodedWord.Statement (.sneImm x kk) :=
  wellFormedWord_of_row (r := ⟨0xF000, 0x4000⟩) (by decide)
    (formatXKK_row 0x4 x kk 0x4000 rfl)

theorem Laws.EncodedWord.seReg (x y : Reg) : Laws.EncodedWord.Statement (.seReg x y) :=
  wellFormedWord_of_row (r := ⟨0xF00F, 0x5000⟩) (by decide)
    (formatXY_row 0x5 x y 0x0 0x5000 rfl)

theorem Laws.EncodedWord.ldImm (x : Reg) (kk : Byte) : Laws.EncodedWord.Statement (.ldImm x kk) :=
  wellFormedWord_of_row (r := ⟨0xF000, 0x6000⟩) (by decide)
    (formatXKK_row 0x6 x kk 0x6000 rfl)

theorem Laws.EncodedWord.addImm (x : Reg) (kk : Byte) : Laws.EncodedWord.Statement (.addImm x kk) :=
  wellFormedWord_of_row (r := ⟨0xF000, 0x7000⟩) (by decide)
    (formatXKK_row 0x7 x kk 0x7000 rfl)

theorem Laws.EncodedWord.ldReg (x y : Reg) : Laws.EncodedWord.Statement (.ldReg x y) :=
  wellFormedWord_of_row (r := ⟨0xF00F, 0x8000⟩) (by decide)
    (formatXY_row 0x8 x y 0x0 0x8000 rfl)

theorem Laws.EncodedWord.orReg (x y : Reg) : Laws.EncodedWord.Statement (.orReg x y) :=
  wellFormedWord_of_row (r := ⟨0xF00F, 0x8001⟩) (by decide)
    (formatXY_row 0x8 x y 0x1 0x8001 rfl)

theorem Laws.EncodedWord.andReg (x y : Reg) : Laws.EncodedWord.Statement (.andReg x y) :=
  wellFormedWord_of_row (r := ⟨0xF00F, 0x8002⟩) (by decide)
    (formatXY_row 0x8 x y 0x2 0x8002 rfl)

theorem Laws.EncodedWord.xorReg (x y : Reg) : Laws.EncodedWord.Statement (.xorReg x y) :=
  wellFormedWord_of_row (r := ⟨0xF00F, 0x8003⟩) (by decide)
    (formatXY_row 0x8 x y 0x3 0x8003 rfl)

theorem Laws.EncodedWord.addReg (x y : Reg) : Laws.EncodedWord.Statement (.addReg x y) :=
  wellFormedWord_of_row (r := ⟨0xF00F, 0x8004⟩) (by decide)
    (formatXY_row 0x8 x y 0x4 0x8004 rfl)

theorem Laws.EncodedWord.subReg (x y : Reg) : Laws.EncodedWord.Statement (.subReg x y) :=
  wellFormedWord_of_row (r := ⟨0xF00F, 0x8005⟩) (by decide)
    (formatXY_row 0x8 x y 0x5 0x8005 rfl)

theorem Laws.EncodedWord.shrReg (x y : Reg) : Laws.EncodedWord.Statement (.shrReg x y) :=
  wellFormedWord_of_row (r := ⟨0xF00F, 0x8006⟩) (by decide)
    (formatXY_row 0x8 x y 0x6 0x8006 rfl)

theorem Laws.EncodedWord.subnReg (x y : Reg) : Laws.EncodedWord.Statement (.subnReg x y) :=
  wellFormedWord_of_row (r := ⟨0xF00F, 0x8007⟩) (by decide)
    (formatXY_row 0x8 x y 0x7 0x8007 rfl)

theorem Laws.EncodedWord.shlReg (x y : Reg) : Laws.EncodedWord.Statement (.shlReg x y) :=
  wellFormedWord_of_row (r := ⟨0xF00F, 0x800E⟩) (by decide)
    (formatXY_row 0x8 x y 0xE 0x800E rfl)

theorem Laws.EncodedWord.sneReg (x y : Reg) : Laws.EncodedWord.Statement (.sneReg x y) :=
  wellFormedWord_of_row (r := ⟨0xF00F, 0x9000⟩) (by decide)
    (formatXY_row 0x9 x y 0x0 0x9000 rfl)

theorem Laws.EncodedWord.ldI (nnn : BitVec 12) : Laws.EncodedWord.Statement (.ldI nnn) :=
  wellFormedWord_of_row (r := ⟨0xF000, 0xA000⟩) (by decide)
    (formatNNN_row 0xA nnn 0xA000 rfl)

theorem Laws.EncodedWord.jpV0 (nnn : BitVec 12) : Laws.EncodedWord.Statement (.jpV0 nnn) :=
  wellFormedWord_of_row (r := ⟨0xF000, 0xB000⟩) (by decide)
    (formatNNN_row 0xB nnn 0xB000 rfl)

theorem Laws.EncodedWord.rnd (x : Reg) (kk : Byte) : Laws.EncodedWord.Statement (.rnd x kk) :=
  wellFormedWord_of_row (r := ⟨0xF000, 0xC000⟩) (by decide)
    (formatXKK_row 0xC x kk 0xC000 rfl)

theorem Laws.EncodedWord.drw (x y : Reg) (n : BitVec 4) : Laws.EncodedWord.Statement (.drw x y n) :=
  wellFormedWord_of_row (r := ⟨0xF000, 0xD000⟩) (by decide)
    (formatXYN_row 0xD x y n 0xD000 rfl)

theorem Laws.EncodedWord.skp (x : Reg) : Laws.EncodedWord.Statement (.skp x) :=
  wellFormedWord_of_row (r := ⟨0xF0FF, 0xE09E⟩) (by decide)
    (formatX_row 0xE x 0x9E 0xE09E rfl)

theorem Laws.EncodedWord.sknp (x : Reg) : Laws.EncodedWord.Statement (.sknp x) :=
  wellFormedWord_of_row (r := ⟨0xF0FF, 0xE0A1⟩) (by decide)
    (formatX_row 0xE x 0xA1 0xE0A1 rfl)

theorem Laws.EncodedWord.ldVxDT (x : Reg) : Laws.EncodedWord.Statement (.ldVxDT x) :=
  wellFormedWord_of_row (r := ⟨0xF0FF, 0xF007⟩) (by decide)
    (formatX_row 0xF x 0x07 0xF007 rfl)

theorem Laws.EncodedWord.ldVxK (x : Reg) : Laws.EncodedWord.Statement (.ldVxK x) :=
  wellFormedWord_of_row (r := ⟨0xF0FF, 0xF00A⟩) (by decide)
    (formatX_row 0xF x 0x0A 0xF00A rfl)

theorem Laws.EncodedWord.ldDTVx (x : Reg) : Laws.EncodedWord.Statement (.ldDTVx x) :=
  wellFormedWord_of_row (r := ⟨0xF0FF, 0xF015⟩) (by decide)
    (formatX_row 0xF x 0x15 0xF015 rfl)

theorem Laws.EncodedWord.ldSTVx (x : Reg) : Laws.EncodedWord.Statement (.ldSTVx x) :=
  wellFormedWord_of_row (r := ⟨0xF0FF, 0xF018⟩) (by decide)
    (formatX_row 0xF x 0x18 0xF018 rfl)

theorem Laws.EncodedWord.ldF (x : Reg) : Laws.EncodedWord.Statement (.ldF x) :=
  wellFormedWord_of_row (r := ⟨0xF0FF, 0xF029⟩) (by decide)
    (formatX_row 0xF x 0x29 0xF029 rfl)

theorem Laws.EncodedWord.ldB (x : Reg) : Laws.EncodedWord.Statement (.ldB x) :=
  wellFormedWord_of_row (r := ⟨0xF0FF, 0xF033⟩) (by decide)
    (formatX_row 0xF x 0x33 0xF033 rfl)

theorem Laws.EncodedWord.storeRegs (x : Reg) : Laws.EncodedWord.Statement (.storeRegs x) :=
  wellFormedWord_of_row (r := ⟨0xF0FF, 0xF055⟩) (by decide)
    (formatX_row 0xF x 0x55 0xF055 rfl)

theorem Laws.EncodedWord.loadRegs (x : Reg) : Laws.EncodedWord.Statement (.loadRegs x) :=
  wellFormedWord_of_row (r := ⟨0xF0FF, 0xF065⟩) (by decide)
    (formatX_row 0xF x 0x65 0xF065 rfl)

end Sys2Proof
end

