-- ==== Sys2Proof/Laws/Memory.lean ====
section
/-!
SUPPORT. The laws of the memory: every operation keeps the canonical form, a read after a write to the same address gives the byte
written, and a write leaves every other address alone.
-/

namespace Sys2Proof.Machine

variable {f : Font}

/-- The head of a canonical list and its tail. -/
theorem Memory.wfFrom_cons (lo a : Nat) (x : Byte) (m : Memory) :
    Memory.wfFrom f lo ((a, x) :: m) = true ↔
      lo ≤ a ∧ a < Config.memSize ∧ x ≠ Memory.initial f a ∧ Memory.wfFrom f (a + 1) m = true := by
  simp [Memory.wfFrom, and_assoc]

/-- A smaller lower bound does no harm. -/
theorem Memory.wfFrom_mono {lo lo' : Nat} {m : Memory} (h : lo' ≤ lo) (w : Memory.wfFrom f lo m = true) :
    Memory.wfFrom f lo' m = true := by
  cases m with
  | nil => rfl
  | cons c m =>
    obtain ⟨a, x⟩ := c
    rw [Memory.wfFrom_cons] at w ⊢
    exact ⟨le_trans h w.1, w.2⟩

/-- Below its first cell a canonical memory reads as the reset contents. -/
theorem Memory.read_below {lo a : Nat} {m : Memory} (w : Memory.wfFrom f lo m = true) (h : a < lo) :
    Memory.read f m a = Memory.initial f a := by
  induction m generalizing lo with
  | nil => rfl
  | cons c m ih =>
    obtain ⟨d, x⟩ := c
    rw [Memory.wfFrom_cons] at w
    have hne : ¬ d = a := by omega
    simp only [Memory.read, if_neg hne]
    exact ih w.2.2.2 (by omega)

/-- An insertion keeps the canonical form. -/
theorem Memory.insert_wfFrom {lo a : Nat} {b : Byte} {m : Memory} (w : Memory.wfFrom f lo m = true) (hl : lo ≤ a)
    (ha : a < Config.memSize) : Memory.wfFrom f lo (Memory.insert f m a b) = true := by
  induction m generalizing lo with
  | nil =>
    unfold Memory.insert
    split
    · rfl
    · rw [Memory.wfFrom_cons]
      exact ⟨hl, ha, by assumption, rfl⟩
  | cons c m ih =>
    obtain ⟨d, x⟩ := c
    have w' := (Memory.wfFrom_cons _ _ _ _).1 w
    unfold Memory.insert
    split
    · split
      · exact w
      · rw [Memory.wfFrom_cons]
        exact ⟨hl, ha, by assumption, (Memory.wfFrom_cons _ _ _ _).2 ⟨by omega, w'.2⟩⟩
    · split
      · split
        · exact Memory.wfFrom_mono (by omega) w'.2.2.2
        · rw [Memory.wfFrom_cons]
          exact ⟨hl, ha, by assumption, Memory.wfFrom_mono (by omega) w'.2.2.2⟩
      · rw [Memory.wfFrom_cons]
        exact ⟨w'.1, w'.2.1, w'.2.2.1, ih w'.2.2.2 (by omega)⟩

/-- An insertion leaves every other address alone, in any list. -/
theorem Memory.read_insert_ne {a c : Nat} (b : Byte) (m : Memory) (h : c ≠ a) :
    Memory.read f (Memory.insert f m a b) c = Memory.read f m c := by
  have h' : ¬ a = c := fun e => h e.symm
  induction m with
  | nil => by_cases hb : b = Memory.initial f a <;> simp [Memory.insert, Memory.read, hb, h']
  | cons d m ih =>
    obtain ⟨d, x⟩ := d
    unfold Memory.insert
    split
    · split <;> simp [Memory.read, h']
    · split
      · subst d
        split <;> simp [Memory.read, h']
      · simp [Memory.read, ih]

/-- After an insertion into a canonical memory the address reads as the byte put there. -/
theorem Memory.read_insert_eq {lo : Nat} (a : Nat) (b : Byte) {m : Memory} (w : Memory.wfFrom f lo m = true) :
    Memory.read f (Memory.insert f m a b) a = b := by
  induction m generalizing lo with
  | nil => by_cases hb : b = Memory.initial f a <;> simp [Memory.insert, Memory.read, hb]
  | cons c m ih =>
    obtain ⟨d, x⟩ := c
    have w' := (Memory.wfFrom_cons _ _ _ _).1 w
    unfold Memory.insert
    split
    · rename_i hlt
      split
      · rename_i hb
        rw [Memory.read_below (lo := d) ((Memory.wfFrom_cons _ _ _ _).2 ⟨le_refl d, w'.2⟩) hlt, hb]
      · simp [Memory.read]
    · split
      · subst d
        split
        · rename_i hb
          rw [Memory.read_below w'.2.2.2 (by omega), hb]
        · simp [Memory.read]
      · rename_i hne
        have : ¬ d = a := fun e => hne e.symm
        simp [Memory.read, this, ih w'.2.2.2]

/-- Every byte write keeps the canonical form. -/
theorem Memory.write_wf {m : Memory} (a : Nat) (b : Byte) (w : Memory.wf f m = true) :
    Memory.wf f (Memory.write f m a b) = true := by
  unfold Memory.write
  split
  · exact Memory.insert_wfFrom w (Nat.zero_le _) (by assumption)
  · exact w

/-- A byte write leaves every other address alone. -/
theorem Memory.read_write_ne {m : Memory} {a c : Nat} (b : Byte) (h : c ≠ a) :
    Memory.read f (Memory.write f m a b) c = Memory.read f m c := by
  unfold Memory.write
  split
  · exact Memory.read_insert_ne b m h
  · rfl

/-- A byte written inside the memory reads back. -/
theorem Memory.read_write_eq {m : Memory} {a : Nat} (b : Byte) (w : Memory.wf f m = true) (h : a < Config.memSize) :
    Memory.read f (Memory.write f m a b) a = b := by
  simp only [Memory.write, if_pos h]
  exact Memory.read_insert_eq a b w

/-- A block write keeps the canonical form. -/
theorem Memory.writeBytes_wf {m : Memory} (a : Nat) (bs : List Byte) (w : Memory.wf f m = true) :
    Memory.wf f (Memory.writeBytes f m a bs) = true := by
  induction bs generalizing m a with
  | nil => exact w
  | cons b bs ih => exact ih (a + 1) (Memory.write_wf a b w)

/-- A block write leaves every address outside the block alone. -/
theorem Memory.read_writeBytes_outside {m : Memory} {a c : Nat} (bs : List Byte) (h : c < a ∨ a + bs.length ≤ c) :
    Memory.read f (Memory.writeBytes f m a bs) c = Memory.read f m c := by
  induction bs generalizing m a with
  | nil => rfl
  | cons b bs ih =>
    simp only [List.length_cons] at h
    simp only [Memory.writeBytes]
    rw [ih (by omega), Memory.read_write_ne b (by omega)]

/-- A block written inside the memory reads back, byte by byte. -/
theorem Memory.read_writeBytes_inside {m : Memory} {a : Nat} {bs : List Byte} (w : Memory.wf f m = true)
    (h : a + bs.length ≤ Config.memSize) (k : Nat) (hk : k < bs.length) :
    Memory.read f (Memory.writeBytes f m a bs) (a + k) = bs[k] := by
  induction bs generalizing m a k with
  | nil => simp at hk
  | cons b bs ih =>
    simp only [List.length_cons] at h hk
    simp only [Memory.writeBytes]
    cases k with
    | zero =>
      rw [Memory.read_writeBytes_outside bs (by omega), Nat.add_zero, Memory.read_write_eq b w (by omega)]
      rfl
    | succ k =>
      have hr := ih (Memory.write_wf a b w) (a := a + 1) (by omega) k (by omega)
      rw [show a + (k + 1) = a + 1 + k by omega, hr]
      rfl

/-- Above the font an unlisted address reads 0 (R35, R61). -/
theorem Memory.initial_above {a : Nat} (h : Config.fontLen ≤ a) : Memory.initial f a = 0 := by
  simp [Memory.initial, Nat.not_lt.2 h]

/-- Inside the font an unlisted address reads as the font (R35, R61). -/
theorem Memory.initial_font {a : Nat} (h : a < Config.fontLen) : Memory.initial f a = f[a] := by
  simp [Memory.initial, h]

/-- The memory after `init` is canonical, whatever the parameters. -/
theorem State.resetWith_memory_wf (p : Parameters) : Memory.wf p.font (State.resetWith p).memory = true := rfl

end Sys2Proof.Machine
end

