-- ==== Sys2Proof/Laws/State.lean ====
section
/-!
SUPPORT. One lemma per field per update of State, true by unfolding, so that no later proof unfolds a record update.
-/

namespace Sys2Proof.Machine

variable (s : State)

/-! ### setV -/

@[simp] theorem State.setV_memory (x : Reg) (b : Byte) : (s.setV x b).memory = s.memory := rfl
@[simp] theorem State.setV_v (x : Reg) (b : Byte) : (s.setV x b).v = s.v.set x.val b := rfl
@[simp] theorem State.setV_i (x : Reg) (b : Byte) : (s.setV x b).i = s.i := rfl
@[simp] theorem State.setV_pc (x : Reg) (b : Byte) : (s.setV x b).pc = s.pc := rfl
@[simp] theorem State.setV_stack (x : Reg) (b : Byte) : (s.setV x b).stack = s.stack := rfl
@[simp] theorem State.setV_sp (x : Reg) (b : Byte) : (s.setV x b).sp = s.sp := rfl
@[simp] theorem State.setV_delay (x : Reg) (b : Byte) : (s.setV x b).delay = s.delay := rfl
@[simp] theorem State.setV_sound (x : Reg) (b : Byte) : (s.setV x b).sound = s.sound := rfl
@[simp] theorem State.setV_kbd (x : Reg) (b : Byte) : (s.setV x b).kbd = s.kbd := rfl
@[simp] theorem State.setV_drawRequested (x : Reg) (b : Byte) : (s.setV x b).drawRequested = s.drawRequested := rfl
@[simp] theorem State.setV_haltRequested (x : Reg) (b : Byte) : (s.setV x b).haltRequested = s.haltRequested := rfl
@[simp] theorem State.setV_fault (x : Reg) (b : Byte) : (s.setV x b).fault = s.fault := rfl
@[simp] theorem State.setV_faultInfo (x : Reg) (b : Byte) : (s.setV x b).faultInfo = s.faultInfo := rfl
@[simp] theorem State.setV_display (x : Reg) (b : Byte) : (s.setV x b).display = s.display := rfl
@[simp] theorem State.setV_input (x : Reg) (b : Byte) : (s.setV x b).input = s.input := rfl
@[simp] theorem State.setV_draws (x : Reg) (b : Byte) : (s.setV x b).draws = s.draws := rfl
@[simp] theorem State.setV_waiting (x : Reg) (b : Byte) : (s.setV x b).waiting = s.waiting := rfl
@[simp] theorem State.setV_events (x : Reg) (b : Byte) : (s.setV x b).events = s.events := rfl
@[simp] theorem State.setV_params (x : Reg) (b : Byte) : (s.setV x b).params = s.params := rfl

/-! ### advance -/

@[simp] theorem State.advance_memory (k : Word) : (s.advance k).memory = s.memory := rfl
@[simp] theorem State.advance_v (k : Word) : (s.advance k).v = s.v := rfl
@[simp] theorem State.advance_i (k : Word) : (s.advance k).i = s.i := rfl
@[simp] theorem State.advance_pc (k : Word) : (s.advance k).pc = s.pc + k := rfl
@[simp] theorem State.advance_stack (k : Word) : (s.advance k).stack = s.stack := rfl
@[simp] theorem State.advance_sp (k : Word) : (s.advance k).sp = s.sp := rfl
@[simp] theorem State.advance_delay (k : Word) : (s.advance k).delay = s.delay := rfl
@[simp] theorem State.advance_sound (k : Word) : (s.advance k).sound = s.sound := rfl
@[simp] theorem State.advance_kbd (k : Word) : (s.advance k).kbd = s.kbd := rfl
@[simp] theorem State.advance_drawRequested (k : Word) : (s.advance k).drawRequested = s.drawRequested := rfl
@[simp] theorem State.advance_haltRequested (k : Word) : (s.advance k).haltRequested = s.haltRequested := rfl
@[simp] theorem State.advance_fault (k : Word) : (s.advance k).fault = s.fault := rfl
@[simp] theorem State.advance_faultInfo (k : Word) : (s.advance k).faultInfo = s.faultInfo := rfl
@[simp] theorem State.advance_display (k : Word) : (s.advance k).display = s.display := rfl
@[simp] theorem State.advance_input (k : Word) : (s.advance k).input = s.input := rfl
@[simp] theorem State.advance_draws (k : Word) : (s.advance k).draws = s.draws := rfl
@[simp] theorem State.advance_waiting (k : Word) : (s.advance k).waiting = s.waiting := rfl
@[simp] theorem State.advance_events (k : Word) : (s.advance k).events = s.events := rfl
@[simp] theorem State.advance_params (k : Word) : (s.advance k).params = s.params := rfl

/-! ### advanceNext -/

@[simp] theorem State.advanceNext_memory : (s.advanceNext).memory = s.memory := rfl
@[simp] theorem State.advanceNext_v : (s.advanceNext).v = s.v := rfl
@[simp] theorem State.advanceNext_i : (s.advanceNext).i = s.i := rfl
@[simp] theorem State.advanceNext_pc : (s.advanceNext).pc = s.pc + 2 := rfl
@[simp] theorem State.advanceNext_stack : (s.advanceNext).stack = s.stack := rfl
@[simp] theorem State.advanceNext_sp : (s.advanceNext).sp = s.sp := rfl
@[simp] theorem State.advanceNext_delay : (s.advanceNext).delay = s.delay := rfl
@[simp] theorem State.advanceNext_sound : (s.advanceNext).sound = s.sound := rfl
@[simp] theorem State.advanceNext_kbd : (s.advanceNext).kbd = s.kbd := rfl
@[simp] theorem State.advanceNext_drawRequested : (s.advanceNext).drawRequested = s.drawRequested := rfl
@[simp] theorem State.advanceNext_haltRequested : (s.advanceNext).haltRequested = s.haltRequested := rfl
@[simp] theorem State.advanceNext_fault : (s.advanceNext).fault = s.fault := rfl
@[simp] theorem State.advanceNext_faultInfo : (s.advanceNext).faultInfo = s.faultInfo := rfl
@[simp] theorem State.advanceNext_display : (s.advanceNext).display = s.display := rfl
@[simp] theorem State.advanceNext_input : (s.advanceNext).input = s.input := rfl
@[simp] theorem State.advanceNext_draws : (s.advanceNext).draws = s.draws := rfl
@[simp] theorem State.advanceNext_waiting : (s.advanceNext).waiting = s.waiting := rfl
@[simp] theorem State.advanceNext_events : (s.advanceNext).events = s.events := rfl
@[simp] theorem State.advanceNext_params : (s.advanceNext).params = s.params := rfl

/-! ### clearDisplay -/

@[simp] theorem State.clearDisplay_memory : (s.clearDisplay).memory = s.memory := rfl
@[simp] theorem State.clearDisplay_v : (s.clearDisplay).v = s.v := rfl
@[simp] theorem State.clearDisplay_i : (s.clearDisplay).i = s.i := rfl
@[simp] theorem State.clearDisplay_pc : (s.clearDisplay).pc = s.pc := rfl
@[simp] theorem State.clearDisplay_stack : (s.clearDisplay).stack = s.stack := rfl
@[simp] theorem State.clearDisplay_sp : (s.clearDisplay).sp = s.sp := rfl
@[simp] theorem State.clearDisplay_delay : (s.clearDisplay).delay = s.delay := rfl
@[simp] theorem State.clearDisplay_sound : (s.clearDisplay).sound = s.sound := rfl
@[simp] theorem State.clearDisplay_kbd : (s.clearDisplay).kbd = s.kbd := rfl
@[simp] theorem State.clearDisplay_drawRequested : (s.clearDisplay).drawRequested = s.drawRequested := rfl
@[simp] theorem State.clearDisplay_haltRequested : (s.clearDisplay).haltRequested = s.haltRequested := rfl
@[simp] theorem State.clearDisplay_fault : (s.clearDisplay).fault = s.fault := rfl
@[simp] theorem State.clearDisplay_faultInfo : (s.clearDisplay).faultInfo = s.faultInfo := rfl
@[simp] theorem State.clearDisplay_display : (s.clearDisplay).display = Display.off := rfl
@[simp] theorem State.clearDisplay_input : (s.clearDisplay).input = s.input := rfl
@[simp] theorem State.clearDisplay_draws : (s.clearDisplay).draws = s.draws := rfl
@[simp] theorem State.clearDisplay_waiting : (s.clearDisplay).waiting = s.waiting := rfl
@[simp] theorem State.clearDisplay_events : (s.clearDisplay).events = s.events := rfl
@[simp] theorem State.clearDisplay_params : (s.clearDisplay).params = s.params := rfl

/-! ### raise -/

@[simp] theorem State.raise_memory (c : FaultCode) (op : Word) (a : Nat) : (s.raise c op a).memory = s.memory := rfl
@[simp] theorem State.raise_v (c : FaultCode) (op : Word) (a : Nat) : (s.raise c op a).v = s.v := rfl
@[simp] theorem State.raise_i (c : FaultCode) (op : Word) (a : Nat) : (s.raise c op a).i = s.i := rfl
@[simp] theorem State.raise_pc (c : FaultCode) (op : Word) (a : Nat) : (s.raise c op a).pc = s.pc := rfl
@[simp] theorem State.raise_stack (c : FaultCode) (op : Word) (a : Nat) : (s.raise c op a).stack = s.stack := rfl
@[simp] theorem State.raise_sp (c : FaultCode) (op : Word) (a : Nat) : (s.raise c op a).sp = s.sp := rfl
@[simp] theorem State.raise_delay (c : FaultCode) (op : Word) (a : Nat) : (s.raise c op a).delay = s.delay := rfl
@[simp] theorem State.raise_sound (c : FaultCode) (op : Word) (a : Nat) : (s.raise c op a).sound = s.sound := rfl
@[simp] theorem State.raise_kbd (c : FaultCode) (op : Word) (a : Nat) : (s.raise c op a).kbd = s.kbd := rfl
@[simp] theorem State.raise_drawRequested (c : FaultCode) (op : Word) (a : Nat) : (s.raise c op a).drawRequested = s.drawRequested := rfl
@[simp] theorem State.raise_haltRequested (c : FaultCode) (op : Word) (a : Nat) : (s.raise c op a).haltRequested = s.haltRequested := rfl
@[simp] theorem State.raise_fault (c : FaultCode) (op : Word) (a : Nat) : (s.raise c op a).fault = c := rfl
@[simp] theorem State.raise_faultInfo (c : FaultCode) (op : Word) (a : Nat) : (s.raise c op a).faultInfo = { pc := s.pc, op := op, addr := BitVec.ofNat 17 a } := rfl
@[simp] theorem State.raise_display (c : FaultCode) (op : Word) (a : Nat) : (s.raise c op a).display = s.display := rfl
@[simp] theorem State.raise_input (c : FaultCode) (op : Word) (a : Nat) : (s.raise c op a).input = s.input := rfl
@[simp] theorem State.raise_draws (c : FaultCode) (op : Word) (a : Nat) : (s.raise c op a).draws = s.draws := rfl
@[simp] theorem State.raise_waiting (c : FaultCode) (op : Word) (a : Nat) : (s.raise c op a).waiting = s.waiting := rfl
@[simp] theorem State.raise_events (c : FaultCode) (op : Word) (a : Nat) : (s.raise c op a).events = s.events := rfl
@[simp] theorem State.raise_params (c : FaultCode) (op : Word) (a : Nat) : (s.raise c op a).params = s.params := rfl

/-! ### poll -/

@[simp] theorem State.poll_memory : (s.poll).memory = s.memory := rfl
@[simp] theorem State.poll_v : (s.poll).v = s.v := rfl
@[simp] theorem State.poll_i : (s.poll).i = s.i := rfl
@[simp] theorem State.poll_pc : (s.poll).pc = s.pc := rfl
@[simp] theorem State.poll_stack : (s.poll).stack = s.stack := rfl
@[simp] theorem State.poll_sp : (s.poll).sp = s.sp := rfl
@[simp] theorem State.poll_delay : (s.poll).delay = s.delay := rfl
@[simp] theorem State.poll_sound : (s.poll).sound = s.sound := rfl
@[simp] theorem State.poll_kbd : (s.poll).kbd = s.kbd.poll keySampleMode s.input.keysDown := rfl
@[simp] theorem State.poll_drawRequested : (s.poll).drawRequested = s.drawRequested := rfl
@[simp] theorem State.poll_haltRequested : (s.poll).haltRequested = s.haltRequested := rfl
@[simp] theorem State.poll_fault : (s.poll).fault = s.fault := rfl
@[simp] theorem State.poll_faultInfo : (s.poll).faultInfo = s.faultInfo := rfl
@[simp] theorem State.poll_display : (s.poll).display = s.display := rfl
@[simp] theorem State.poll_input : (s.poll).input = s.input := rfl
@[simp] theorem State.poll_draws : (s.poll).draws = s.draws := rfl
@[simp] theorem State.poll_waiting : (s.poll).waiting = s.waiting := rfl
@[simp] theorem State.poll_events : (s.poll).events = s.events := rfl
@[simp] theorem State.poll_params : (s.poll).params = s.params := rfl

/-! ### tickTimers -/

@[simp] theorem State.tickTimers_memory : (s.tickTimers).memory = s.memory := rfl
@[simp] theorem State.tickTimers_v : (s.tickTimers).v = s.v := rfl
@[simp] theorem State.tickTimers_i : (s.tickTimers).i = s.i := rfl
@[simp] theorem State.tickTimers_pc : (s.tickTimers).pc = s.pc := rfl
@[simp] theorem State.tickTimers_stack : (s.tickTimers).stack = s.stack := rfl
@[simp] theorem State.tickTimers_sp : (s.tickTimers).sp = s.sp := rfl
@[simp] theorem State.tickTimers_delay : (s.tickTimers).delay = tickTimer s.delay := rfl
@[simp] theorem State.tickTimers_sound : (s.tickTimers).sound = tickTimer s.sound := rfl
@[simp] theorem State.tickTimers_kbd : (s.tickTimers).kbd = s.kbd := rfl
@[simp] theorem State.tickTimers_drawRequested : (s.tickTimers).drawRequested = s.drawRequested := rfl
@[simp] theorem State.tickTimers_haltRequested : (s.tickTimers).haltRequested = s.haltRequested := rfl
@[simp] theorem State.tickTimers_fault : (s.tickTimers).fault = s.fault := rfl
@[simp] theorem State.tickTimers_faultInfo : (s.tickTimers).faultInfo = s.faultInfo := rfl
@[simp] theorem State.tickTimers_display : (s.tickTimers).display = s.display := rfl
@[simp] theorem State.tickTimers_input : (s.tickTimers).input = s.input := rfl
@[simp] theorem State.tickTimers_draws : (s.tickTimers).draws = s.draws := rfl
@[simp] theorem State.tickTimers_waiting : (s.tickTimers).waiting = s.waiting := rfl
@[simp] theorem State.tickTimers_events : (s.tickTimers).events = s.events := rfl
@[simp] theorem State.tickTimers_params : (s.tickTimers).params = s.params := rfl

/-! ### ackDraw -/

@[simp] theorem State.ackDraw_memory : (s.ackDraw).memory = s.memory := rfl
@[simp] theorem State.ackDraw_v : (s.ackDraw).v = s.v := rfl
@[simp] theorem State.ackDraw_i : (s.ackDraw).i = s.i := rfl
@[simp] theorem State.ackDraw_pc : (s.ackDraw).pc = s.pc := rfl
@[simp] theorem State.ackDraw_stack : (s.ackDraw).stack = s.stack := rfl
@[simp] theorem State.ackDraw_sp : (s.ackDraw).sp = s.sp := rfl
@[simp] theorem State.ackDraw_delay : (s.ackDraw).delay = s.delay := rfl
@[simp] theorem State.ackDraw_sound : (s.ackDraw).sound = s.sound := rfl
@[simp] theorem State.ackDraw_kbd : (s.ackDraw).kbd = s.kbd := rfl
@[simp] theorem State.ackDraw_drawRequested : (s.ackDraw).drawRequested = false := rfl
@[simp] theorem State.ackDraw_haltRequested : (s.ackDraw).haltRequested = s.haltRequested := rfl
@[simp] theorem State.ackDraw_fault : (s.ackDraw).fault = s.fault := rfl
@[simp] theorem State.ackDraw_faultInfo : (s.ackDraw).faultInfo = s.faultInfo := rfl
@[simp] theorem State.ackDraw_display : (s.ackDraw).display = s.display := rfl
@[simp] theorem State.ackDraw_input : (s.ackDraw).input = s.input := rfl
@[simp] theorem State.ackDraw_draws : (s.ackDraw).draws = s.draws := rfl
@[simp] theorem State.ackDraw_waiting : (s.ackDraw).waiting = s.waiting := rfl
@[simp] theorem State.ackDraw_events : (s.ackDraw).events = s.events := rfl
@[simp] theorem State.ackDraw_params : (s.ackDraw).params = s.params := rfl

/-! ### decodeErrorStep -/

@[simp] theorem State.decodeErrorStep_memory : (s.decodeErrorStep).memory = s.memory := rfl
@[simp] theorem State.decodeErrorStep_v : (s.decodeErrorStep).v = s.v := rfl
@[simp] theorem State.decodeErrorStep_i : (s.decodeErrorStep).i = s.i := rfl
@[simp] theorem State.decodeErrorStep_pc : (s.decodeErrorStep).pc = s.pc + decodeErrorPcAdvance := rfl
@[simp] theorem State.decodeErrorStep_stack : (s.decodeErrorStep).stack = s.stack := rfl
@[simp] theorem State.decodeErrorStep_sp : (s.decodeErrorStep).sp = s.sp := rfl
@[simp] theorem State.decodeErrorStep_delay : (s.decodeErrorStep).delay = s.delay := rfl
@[simp] theorem State.decodeErrorStep_sound : (s.decodeErrorStep).sound = s.sound := rfl
@[simp] theorem State.decodeErrorStep_kbd : (s.decodeErrorStep).kbd = s.kbd := rfl
@[simp] theorem State.decodeErrorStep_drawRequested : (s.decodeErrorStep).drawRequested = s.drawRequested := rfl
@[simp] theorem State.decodeErrorStep_haltRequested : (s.decodeErrorStep).haltRequested = s.haltRequested := rfl
@[simp] theorem State.decodeErrorStep_fault : (s.decodeErrorStep).fault = s.fault := rfl
@[simp] theorem State.decodeErrorStep_faultInfo : (s.decodeErrorStep).faultInfo = s.faultInfo := rfl
@[simp] theorem State.decodeErrorStep_display : (s.decodeErrorStep).display = s.display := rfl
@[simp] theorem State.decodeErrorStep_input : (s.decodeErrorStep).input = s.input := rfl
@[simp] theorem State.decodeErrorStep_draws : (s.decodeErrorStep).draws = s.draws := rfl
@[simp] theorem State.decodeErrorStep_waiting : (s.decodeErrorStep).waiting = s.waiting := rfl
@[simp] theorem State.decodeErrorStep_events : (s.decodeErrorStep).events = s.events := rfl
@[simp] theorem State.decodeErrorStep_params : (s.decodeErrorStep).params = s.params := rfl

/-! ### storeBytes -/

@[simp] theorem State.storeBytes_memory (a : Nat) (bs : List Byte) : (s.storeBytes a bs).memory = Memory.writeBytes s.params.font s.memory a bs := rfl
@[simp] theorem State.storeBytes_v (a : Nat) (bs : List Byte) : (s.storeBytes a bs).v = s.v := rfl
@[simp] theorem State.storeBytes_i (a : Nat) (bs : List Byte) : (s.storeBytes a bs).i = s.i := rfl
@[simp] theorem State.storeBytes_pc (a : Nat) (bs : List Byte) : (s.storeBytes a bs).pc = s.pc := rfl
@[simp] theorem State.storeBytes_stack (a : Nat) (bs : List Byte) : (s.storeBytes a bs).stack = s.stack := rfl
@[simp] theorem State.storeBytes_sp (a : Nat) (bs : List Byte) : (s.storeBytes a bs).sp = s.sp := rfl
@[simp] theorem State.storeBytes_delay (a : Nat) (bs : List Byte) : (s.storeBytes a bs).delay = s.delay := rfl
@[simp] theorem State.storeBytes_sound (a : Nat) (bs : List Byte) : (s.storeBytes a bs).sound = s.sound := rfl
@[simp] theorem State.storeBytes_kbd (a : Nat) (bs : List Byte) : (s.storeBytes a bs).kbd = s.kbd := rfl
@[simp] theorem State.storeBytes_drawRequested (a : Nat) (bs : List Byte) : (s.storeBytes a bs).drawRequested = s.drawRequested := rfl
@[simp] theorem State.storeBytes_haltRequested (a : Nat) (bs : List Byte) : (s.storeBytes a bs).haltRequested = s.haltRequested := rfl
@[simp] theorem State.storeBytes_fault (a : Nat) (bs : List Byte) : (s.storeBytes a bs).fault = s.fault := rfl
@[simp] theorem State.storeBytes_faultInfo (a : Nat) (bs : List Byte) : (s.storeBytes a bs).faultInfo = s.faultInfo := rfl
@[simp] theorem State.storeBytes_display (a : Nat) (bs : List Byte) : (s.storeBytes a bs).display = s.display := rfl
@[simp] theorem State.storeBytes_input (a : Nat) (bs : List Byte) : (s.storeBytes a bs).input = s.input := rfl
@[simp] theorem State.storeBytes_draws (a : Nat) (bs : List Byte) : (s.storeBytes a bs).draws = s.draws := rfl
@[simp] theorem State.storeBytes_waiting (a : Nat) (bs : List Byte) : (s.storeBytes a bs).waiting = s.waiting := rfl
@[simp] theorem State.storeBytes_events (a : Nat) (bs : List Byte) : (s.storeBytes a bs).events = s.events := rfl
@[simp] theorem State.storeBytes_params (a : Nat) (bs : List Byte) : (s.storeBytes a bs).params = s.params := rfl

/-! ### placeWord -/

@[simp] theorem State.placeWord_memory (op : Word) : (s.placeWord op).memory = Memory.writeBytes s.params.font s.memory s.pc.toNat (bytesOfWord op) := rfl
@[simp] theorem State.placeWord_v (op : Word) : (s.placeWord op).v = s.v := rfl
@[simp] theorem State.placeWord_i (op : Word) : (s.placeWord op).i = s.i := rfl
@[simp] theorem State.placeWord_pc (op : Word) : (s.placeWord op).pc = s.pc := rfl
@[simp] theorem State.placeWord_stack (op : Word) : (s.placeWord op).stack = s.stack := rfl
@[simp] theorem State.placeWord_sp (op : Word) : (s.placeWord op).sp = s.sp := rfl
@[simp] theorem State.placeWord_delay (op : Word) : (s.placeWord op).delay = s.delay := rfl
@[simp] theorem State.placeWord_sound (op : Word) : (s.placeWord op).sound = s.sound := rfl
@[simp] theorem State.placeWord_kbd (op : Word) : (s.placeWord op).kbd = s.kbd := rfl
@[simp] theorem State.placeWord_drawRequested (op : Word) : (s.placeWord op).drawRequested = s.drawRequested := rfl
@[simp] theorem State.placeWord_haltRequested (op : Word) : (s.placeWord op).haltRequested = s.haltRequested := rfl
@[simp] theorem State.placeWord_fault (op : Word) : (s.placeWord op).fault = s.fault := rfl
@[simp] theorem State.placeWord_faultInfo (op : Word) : (s.placeWord op).faultInfo = s.faultInfo := rfl
@[simp] theorem State.placeWord_display (op : Word) : (s.placeWord op).display = s.display := rfl
@[simp] theorem State.placeWord_input (op : Word) : (s.placeWord op).input = s.input := rfl
@[simp] theorem State.placeWord_draws (op : Word) : (s.placeWord op).draws = s.draws := rfl
@[simp] theorem State.placeWord_waiting (op : Word) : (s.placeWord op).waiting = s.waiting := rfl
@[simp] theorem State.placeWord_events (op : Word) : (s.placeWord op).events = s.events := rfl
@[simp] theorem State.placeWord_params (op : Word) : (s.placeWord op).params = s.params := rfl

/-! ### skipIf, setFlag -/

/-- A skip changes the `PC` alone: 4 on, or 2 on (R169). -/
theorem State.skipIf_eq (c : Bool) : s.skipIf c = { s with pc := s.pc + (if c then 4 else 2) } := by
  cases c <;> rfl

/-- The flag write changes the registers alone. -/
theorem State.setFlag_eq (f : Option Bool) : s.setFlag f = { s with v := (s.setFlag f).v } := by
  cases f <;> rfl

end Sys2Proof.Machine
end

