-- ==== Sys2Proof/Machine/Result.lean ====
section
/-!
DEFINITION. What the driver sees of a step (spec/40_step_dispatch.md rules R124, R125): a function of the state the step starts from,
since a result "leaves no mark in the state" (R33; log entry 15).
-/

namespace Sys2Proof.Machine

/-- The result of a `step` event (R125, R230). -/
inductive StepResult where
  | idle
  | ok
  | decodeError (pc op : Word)
  | fatal (cause : FaultCode) (info : FaultInfo)
  | halted
  deriving DecidableEq, Repr

/-- The result of a step whose handler left the state `t`; `none`: the step is still blocked in `Fx0A` (R120 phase 7, R126). -/
def resultAfter (t : State) : Option StepResult :=
  if t.fault ≠ .noFault then some (.fatal t.fault t.faultInfo)
  else if t.haltRequested then some .halted
  else if t.waiting then none
  else some .ok

/-- The result of phases 3 to 7 from the polled state `s` (R120). -/
def runResult (s : State) : Option StepResult :=
  match s.fetch? with
  | none => resultAfter s.raiseFetch
  | some op =>
    match decode op with
    | .error _ => some (.decodeError s.pc op)
    | .ok i =>
      match exec i s with
      | .next t => resultAfter t
      | _ => none

/-- The result the transition from `s` reports; `none`: it is no `step` event, or a step that has not ended. -/
def stepResult (s : State) : Option StepResult :=
  match s.nextHostEvent? with
  | some _ => none
  | none => if s.gated then some .idle else runResult s.beginStep

end Sys2Proof.Machine
end

