-- ==== Sys2Proof/Safety.lean ====
section
/-!
DEFINITION. What claims are stated with: the invariants of spec/10_state.md rule R36, and frames.
-/

namespace Sys2Proof.Machine

/-- The bounds of R36 on `I`, `PC` and the live stack entries (`SP` and `qCount` are bounded by their types). -/
def State.InBounds (s : State) : Prop :=
  s.i.toNat ≤ 0x0FFF ∧ s.pc.toNat ≤ 0x10FE ∧ ∀ k : Fin 16, k.val < s.sp.val → s.stack[k.val].toNat ≤ 4096

/-- A blocked step is a `Fx0A` that found the FIFO empty in a running machine (R197). -/
def State.WaitsInKeyRead (s : State) : Prop :=
  s.waiting = true →
    s.gated = false ∧ s.kbd.qCount = 0 ∧ ∃ x op, s.fetch? = some op ∧ decode op = .ok (.ldVxK x)

/-- The run is not over: a `step` event does something (R121). -/
def State.Running (s : State) : Prop := s.gated = false

/-- A new `step` event comes next: no other event is pending and no step is blocked (R8). -/
def State.AtStep (s : State) : Prop := s.waiting = false ∧ s.nextHostEvent? = none

/-- Only the general registers and the `PC` may differ: the frame of a register instruction. -/
def OnlyVAndPc (s t : State) : Prop := t = { s with v := t.v, pc := t.pc }

/-- Only the memory and the `PC` may differ: the frame of a storing instruction. -/
def OnlyMemoryAndPc (s t : State) : Prop := t = { s with memory := t.memory, pc := t.pc }

/-- Every register but those listed is unchanged. -/
def RegsKeptBut (ws : List Reg) (s t : State) : Prop := ∀ r, r ∉ ws → t.getV r = s.getV r

/-- Every byte outside `[a, a+n)` reads as before. -/
def BytesKeptOutside (a n : Nat) (s t : State) : Prop := ∀ b, (b < a ∨ a + n ≤ b) → t.byteAt b = s.byteAt b

/-- The memory is in the canonical form of the machine's own font (log entry 2). -/
abbrev State.MemoryWf (s : State) : Prop := Memory.wf s.params.font s.memory = true

/-- Bit `7 - c` of row `r` of the sprite at `memory[I ..]`, drawn at row `V[y]`, column `V[x]`, is set and toggles the pixel (R212). -/
def State.spriteBit (s : State) (x y : Reg) (r c : Nat) (p : Pixel) : Bool :=
  (s.byteAt (s.i.toNat + r)).getLsbD (7 - c) &&
    decide (p.row = ((s.getV y).toNat % s.params.screenH + r) % s.params.screenH ∧
      p.col = ((s.getV x).toNat % s.params.screenW + c) % s.params.screenW)

/-- The pixel is under a set bit of the `n`-row sprite (R212). -/
def State.InSprite (s : State) (x y : Reg) (n : Nat) (p : Pixel) : Prop :=
  ∃ r c, r < n ∧ c < 8 ∧ s.spriteBit x y r c p = true

/-- How many set bits of the `n`-row sprite toggle the pixel; more than one only where a sprite wraps onto itself (R212). -/
def State.spriteHits (s : State) (x y : Reg) (n : Nat) (p : Pixel) : Nat :=
  ((List.range n).map (fun r => (List.range 8).countP (fun c => s.spriteBit x y r c p))).sum

/-- The keys that go down between two polls, in ascending order (R191). -/
def Keyboard.edges (k : Keyboard) (down : Vector Bool 16) : List Key :=
  (List.finRange 16).filter (fun key => down[key.val] && !k.keyPrev[key.val])

/-- The function code of rule R140. -/
def AluOp.code (f : AluOp) : BitVec 4 :=
  match f with
  | .copy => 0
  | .bitOr => 1
  | .bitAnd => 2
  | .bitXor => 3
  | .add => 4
  | .sub => 5
  | .shr => 6
  | .subn => 7
  | .shl => 0xE

/-- The `8xyN` instruction of a function code (R143 to R151). -/
def AluOp.instr (f : AluOp) (x y : Reg) : Instr :=
  match f with
  | .copy => .ldReg x y
  | .bitOr => .orReg x y
  | .bitAnd => .andReg x y
  | .bitXor => .xorReg x y
  | .add => .addReg x y
  | .sub => .subReg x y
  | .shr => .shrReg x y
  | .subn => .subnReg x y
  | .shl => .shlReg x y

/-- The meanings of a list of instructions, one after another; used to state what pairs and runs of calls do. -/
def execAll (is : List Instr) (s : State) : Host.Outcome State Fault Refusal :=
  match is with
  | [] => .next s
  | i :: rest =>
    match exec i s with
    | .next t => execAll rest t
    | .fault r => .fault r
    | .refused r => .refused r

/-- The state a fatal fault leaves: `fault` and `faultInfo` written, nothing else (R240). -/
def State.faulted (s : State) (c : FaultCode) (op : Word) (addr : BitVec 17) : State :=
  { s with fault := c, faultInfo := { pc := s.pc, op := op, addr := addr } }

end Sys2Proof.Machine
end

