-- ==== Sys2Proof/Laws/Ops.lean ====
section
/-!
SUPPORT. One lemma per shared operation that says everything it can do; later proofs cite these and unfold nothing.
-/

namespace Sys2Proof.Machine

variable (s : State)

/-! ### Registers -/

/-- A register write reads back, and leaves every other register alone (R6, R21). -/
theorem State.getV_setV (x r : Reg) (b : Byte) : (s.setV x b).getV r = if r = x then b else s.getV r := by
  unfold State.getV State.setV
  by_cases h : r = x
  · simp [h]
  · have : x.val ≠ r.val := fun e => h (Fin.ext e.symm)
    simp [h, Vector.getElem_set_ne, this]

@[simp] theorem State.getV_setV_same (x : Reg) (b : Byte) : (s.setV x b).getV x = b := by
  simp [State.getV_setV]

theorem State.getV_setV_ne {x r : Reg} (b : Byte) (h : r ≠ x) : (s.setV x b).getV r = s.getV r := by
  simp [State.getV_setV, h]

/-- A register reads the same in two states with the same registers. -/
theorem State.getV_congr {s t : State} (h : t.v = s.v) (r : Reg) : t.getV r = s.getV r := by
  unfold State.getV
  rw [h]

@[simp] theorem State.getV_advance (k : Word) (r : Reg) : (s.advance k).getV r = s.getV r := rfl
@[simp] theorem State.getV_advanceNext (r : Reg) : s.advanceNext.getV r = s.getV r := rfl

/-- After the flag write VF holds the flag, if there is one; every other register is unchanged (R22, R153). -/
theorem State.getV_setFlag (f : Option Bool) (r : Reg) :
    (s.setFlag f).getV r =
      match f with
      | none => s.getV r
      | some c => if r = vf then flagByte c else s.getV r := by
  cases f with
  | none => rfl
  | some c => exact State.getV_setV s vf r (flagByte c)

/-- An ALU instruction changes the registers and the `PC` alone (R140, R153). -/
theorem State.aluStep_frame (f : AluOp) (x y : Reg) :
    OnlyVAndPc s (s.aluStep f x y) ∧ (s.aluStep f x y).pc = s.pc + 2 := by
  unfold State.aluStep OnlyVAndPc
  rw [State.setFlag_eq]
  exact ⟨rfl, rfl⟩

/-- What every register holds after an ALU instruction: the flag is written after the result (R153). -/
theorem State.getV_aluStep (f : AluOp) (x y r : Reg) :
    (s.aluStep f x y).getV r =
      match (alu f (s.getV x) (s.getV y)).2 with
      | none => if r = x then (alu f (s.getV x) (s.getV y)).1 else s.getV r
      | some c => if r = vf then flagByte c else if r = x then (alu f (s.getV x) (s.getV y)).1 else s.getV r := by
  unfold State.aluStep
  rw [State.getV_advanceNext, State.getV_setFlag]
  split <;> simp [State.getV_setV]

/-! ### The return stack -/

/-- Everything `push` can do (R171). -/
theorem State.push?_spec (v : Word) :
    (s.sp.val = 16 ∧ s.push? v = none) ∨
    (∃ h : s.sp.val < 16, s.push? v = some { s with stack := s.stack.set s.sp.val v, sp := ⟨s.sp.val + 1, by omega⟩ }) := by
  by_cases h : s.sp.val < 16
  · exact .inr ⟨h, by simp [State.push?, h]⟩
  · exact .inl ⟨by omega, by simp [State.push?, h]⟩

/-- Everything `pop` can do (R171). -/
theorem State.pop?_spec :
    (s.sp.val = 0 ∧ s.pop? = none) ∨
    (∃ h : 0 < s.sp.val, s.pop? = some (s.stack[s.sp.val - 1], { s with sp := ⟨s.sp.val - 1, by omega⟩ })) := by
  by_cases h : 0 < s.sp.val
  · exact .inr ⟨h, by simp [State.pop?, h]⟩
  · exact .inl ⟨by omega, by simp [State.pop?, h]⟩

/-! ### The FIFO -/

/-- Everything `enqueue` can do (R192). -/
theorem Keyboard.enqueue_spec (k : Keyboard) (key : Key) :
    (k.qCount.val = 16 ∧ k.enqueue key = k) ∨
    (∃ h : k.qCount.val < 16, k.enqueue key =
      { k with q := k.q.set (k.slot k.qCount.val).val key, qCount := ⟨k.qCount.val + 1, by omega⟩ }) := by
  by_cases h : k.qCount.val < 16
  · exact .inr ⟨h, by simp [Keyboard.enqueue, h]⟩
  · exact .inl ⟨by omega, by simp [Keyboard.enqueue, h]⟩

/-! ### The checked range and faults -/

/-- When a range leaves the memory, and which address is reported (R219). -/
theorem outOfRange?_eq (base count : Nat) :
    outOfRange? base count = if 0 < count ∧ base + count > 4096 then some (max base 4096) else none := by
  unfold outOfRange?
  split <;> split <;> first | rfl | omega

/-- Everything an accessing instruction can do: its body when the range lies inside the memory, else the precise fault (R219, R240). -/
theorem State.accessing_spec (i : Instr) (count : Nat) (body : State) :
    ((count = 0 ∨ s.i.toNat + count ≤ 4096) ∧ s.accessing i count body = body) ∨
    (0 < count ∧ s.i.toNat + count > 4096 ∧
      s.accessing i count body = s.raise .dataAddressFault (encode i) (max s.i.toNat 4096)) := by
  unfold State.accessing
  rw [outOfRange?_eq]
  by_cases h : 0 < count ∧ s.i.toNat + count > 4096
  · exact .inr ⟨h.1, h.2, by simp [h]⟩
  · refine .inl ⟨by omega, ?_⟩
    simp only [if_neg h]

/-- Everything the fetch can answer (R64). -/
theorem State.fetch?_spec :
    (s.pc.toNat > 4094 ∧ s.fetch? = none) ∨
    (s.pc.toNat ≤ 4094 ∧ s.fetch? = some (wordOfBytes (s.byteAt s.pc.toNat) (s.byteAt (s.pc.toNat + 1)))) := by
  by_cases h : s.pc.toNat > 4094
  · exact .inl ⟨h, by simp [State.fetch?, h]⟩
  · exact .inr ⟨by omega, by simp [State.fetch?, h]⟩

/-! ### Register blocks -/

/-- `V[0..=x]` has `x + 1` bytes (R217). -/
@[simp] theorem State.regBlock_length (x : Reg) : (s.regBlock x).length = x.val + 1 := by
  have := x.isLt
  simp [State.regBlock]

/-- Byte `k` of `V[0..=x]` is `V[k]` (R217). -/
theorem State.regBlock_getElem (x k : Reg) (h : k.val < (s.regBlock x).length) : (s.regBlock x)[k.val] = s.getV k := by
  simp [State.regBlock, State.getV]

/-- The registers after a block load (R218). -/
theorem State.getV_loadBlock (x r : Reg) (a : Nat) (t : State) (h : t.v = s.loadBlock x a) :
    t.getV r = if r ≤ x then s.byteAt (a + r.val) else s.getV r := by
  simp [State.getV, h, State.loadBlock]

/-! ### The display -/

/-- A pixel put in is there, and no other pixel comes or goes. -/
theorem Display.mem_light (d : Display) (p r : Pixel) : r ∈ Display.light d p ↔ r = p ∨ r ∈ d := by
  induction d with
  | nil => simp [Display.light]
  | cons q d ih =>
    unfold Display.light
    split
    · simp
    · simp only [List.mem_cons, ih]
      tauto

/-- One toggle answers what its pixel was (R213). -/
theorem Display.toggle_wasLit (d : Display) (p : Pixel) : (Display.toggle d p).1 = Display.lit d p := by
  unfold Display.toggle
  split
  · exact Eq.symm ‹_›
  · simp_all

/-- One toggle inverts its pixel and no other (R213). -/
theorem Display.toggle_lit (d : Display) (p r : Pixel) :
    Display.lit (Display.toggle d p).2 r = (if r = p then !Display.lit d p else Display.lit d r) := by
  unfold Display.toggle
  by_cases hl : Display.lit d p = true
  · by_cases hr : r = p
    · subst hr
      rw [if_pos hl, if_pos rfl, hl]
      simp [Display.lit]
    · rw [if_pos hl, if_neg hr]
      simp [Display.lit, hr]
  · have hl' : p ∉ d := by simpa [Display.lit] using hl
    by_cases hr : r = p
    · subst hr
      simp [Display.lit, Display.mem_light, hl']
    · simp [Display.lit, Display.mem_light, hl', hr]

/-- Two pixels are ordered one way, or the other, or they are one. -/
theorem Pixel.before_trichotomy (p q : Pixel) : p.before q = true ∨ p = q ∨ q.before p = true := by
  obtain ⟨pr, pc⟩ := p
  obtain ⟨qr, qc⟩ := q
  simp only [Pixel.before, Bool.or_eq_true, Bool.and_eq_true, decide_eq_true_eq, Pixel.mk.injEq]
  omega

theorem Pixel.before_trans {p q r : Pixel} (h : p.before q = true) (k : q.before r = true) : p.before r = true := by
  simp only [Pixel.before, Bool.or_eq_true, Bool.and_eq_true, decide_eq_true_eq] at h k ⊢
  omega

/-- Putting in a pixel that was not there keeps the reading order. -/
theorem Display.light_pairwise {d : Display} {p : Pixel} (hp : p ∉ d) (w : d.Pairwise (fun q r => q.before r = true)) :
    (Display.light d p).Pairwise (fun q r => q.before r = true) := by
  induction d with
  | nil => simp [Display.light]
  | cons q d ih =>
    obtain ⟨hq, hd⟩ := List.pairwise_cons.1 w
    unfold Display.light
    split
    · rename_i hb
      refine List.pairwise_cons.2 ⟨fun r hr => ?_, w⟩
      rcases List.mem_cons.1 hr with rfl | hr
      · exact hb
      · exact Pixel.before_trans hb (hq r hr)
    · rename_i hb
      refine List.pairwise_cons.2 ⟨fun r hr => ?_, ih (fun h => hp (List.mem_cons_of_mem _ h)) hd⟩
      rcases (Display.mem_light d p r).1 hr with rfl | hr
      · rcases Pixel.before_trichotomy r q with h | h | h
        · exact absurd h hb
        · exact absurd (h ▸ List.mem_cons_self) hp
        · exact h
      · exact hq r hr

/-- The canonical form of the frame buffer, read as two facts. -/
theorem Display.wf_iff (p : Parameters) (d : Display) : Display.wf p d = true ↔
    d.Pairwise (fun q r => q.before r = true) ∧ ∀ q ∈ d, q.row < (p.screenH : Nat) ∧ q.col < (p.screenW : Nat) := by
  simp [Display.wf]

/-- A toggle of a pixel on the screen keeps the canonical form (log entry 5). -/
theorem Display.toggle_wf {p : Parameters} {d : Display} (q : Pixel) (hr : q.row < (p.screenH : Nat)) (hc : q.col < (p.screenW : Nat))
    (w : Display.wf p d = true) : Display.wf p (Display.toggle d q).2 = true := by
  rw [Display.wf_iff] at w ⊢
  unfold Display.toggle
  split
  · exact ⟨w.1.filter _, fun r hm => w.2 r (List.mem_of_mem_filter hm)⟩
  · rename_i hl
    refine ⟨Display.light_pairwise (by simpa [Display.lit] using hl) w.1, fun r hm => ?_⟩
    rcases (Display.mem_light d q r).1 hm with rfl | hm
    · exact ⟨hr, hc⟩
    · exact w.2 r hm

/-- A run of toggles of pixels on the screen keeps the canonical form (log entry 5). -/
theorem Display.toggleAll_wf {p : Parameters} {ps : List Pixel}
    (h : ∀ q ∈ ps, q.row < (p.screenH : Nat) ∧ q.col < (p.screenW : Nat)) {d : Display} (c : Bool) (w : Display.wf p d = true) :
    Display.wf p (Display.toggleAll d ps c).2 = true := by
  induction ps generalizing d c with
  | nil => exact w
  | cons q ps ih =>
    have hq := h q List.mem_cons_self
    exact ih (fun r hr => h r (List.mem_cons_of_mem _ hr)) _ (Display.toggle_wf q hq.1 hq.2 w)

/-- Every pixel a sprite toggles is on the screen (R212, R213). -/
theorem State.spritePixels_onScreen (a n : Nat) (vx vy : Byte) (q : Pixel) (h : q ∈ s.spritePixels a n vx vy) :
    q.row < (s.params.screenH : Nat) ∧ q.col < (s.params.screenW : Nat) := by
  simp only [State.spritePixels, rowPixels, List.mem_flatMap, List.mem_filterMap] at h
  obtain ⟨r, -, c, -, h⟩ := h
  split at h
  · cases h
    exact ⟨Nat.mod_lt _ s.params.screenH.pos, Nat.mod_lt _ s.params.screenW.pos⟩
  · cases h

/-- Everything a run of toggles does (R212): a pixel named an odd number of times is inverted, and the answer says whether some toggle
met a lit pixel: one lit before, or one named twice. -/
theorem Display.toggleAll_spec (ps : List Pixel) (d : Display) (c : Bool) :
    (∀ p, Display.lit (Display.toggleAll d ps c).2 p = (Display.lit d p ^^ decide (ps.count p % 2 = 1))) ∧
    ((Display.toggleAll d ps c).1 = true ↔ c = true ∨ ∃ p ∈ ps, Display.lit d p = true ∨ 2 ≤ ps.count p) := by
  induction ps generalizing d c with
  | nil => simp [Display.toggleAll]
  | cons q ps ih =>
    obtain ⟨hl, hc⟩ := ih (Display.toggle d q).2 (c || (Display.toggle d q).1)
    unfold Display.toggleAll
    refine ⟨fun p => ?_, ?_⟩
    · rw [hl, Display.toggle_lit]
      by_cases hp : p = q
      · subst hp
        have h1 : (p :: ps).count p = ps.count p + 1 := List.count_cons_self
        rw [if_pos rfl, h1]
        rcases Nat.mod_two_eq_zero_or_one (ps.count p) with h | h
        · simp [show (ps.count p + 1) % 2 = 1 by omega, h]
        · simp [show (ps.count p + 1) % 2 = 0 by omega, h]
      · rw [if_neg hp, List.count_cons_of_ne (Ne.symm hp)]
    · rw [hc, Display.toggle_wasLit]
      have hq : ps.count q + 1 = (q :: ps).count q := List.count_cons_self.symm
      have hn : ∀ p, p ≠ q → (q :: ps).count p = ps.count p := fun p h => List.count_cons_of_ne (Ne.symm h)
      constructor
      · rintro (h | ⟨p, hm, h⟩)
        · rcases (Bool.or_eq_true ..).mp h with h | h
          · exact .inl h
          · exact .inr ⟨q, List.mem_cons_self, .inl h⟩
        · by_cases hp : p = q
          · subst hp
            have : 0 < ps.count p := List.count_pos_iff.2 hm
            exact .inr ⟨p, List.mem_cons_self, .inr (by omega)⟩
          · rw [Display.toggle_lit, if_neg hp, ← hn p hp] at h
            exact .inr ⟨p, List.mem_cons_of_mem _ hm, h⟩
      · rintro (h | ⟨p, hm, h⟩)
        · exact .inl (by simp [h])
        · by_cases hp : p = q
          · subst hp
            by_cases hd : Display.lit d p = true
            · exact .inl (by simp [hd])
            · have h2 : 2 ≤ (p :: ps).count p := h.resolve_left hd
              exact .inr ⟨p, List.count_pos_iff.1 (by omega), .inl (by simp [Display.toggle_lit, hd])⟩
          · have hm' := (List.mem_cons.1 hm).resolve_left hp
            refine .inr ⟨p, hm', ?_⟩
            rw [Display.toggle_lit, if_neg hp, ← hn p hp]
            exact h

end Sys2Proof.Machine
end

