-- ==== Sys2Proof/Laws/Step.lean ====
section
/-!
SUPPORT. What one transition can do: the phases before the instruction change only their own fields, and every step is one of five
cases.
-/

namespace Sys2Proof.Machine

variable (s : State)

/-- Using up a pending step changes the pending events alone. -/
theorem State.dropEvent_eq : s.dropEvent = { s with events := s.dropEvent.events } := by
  unfold State.dropEvent
  split <;> rfl

/-- Taking a step's answers changes the model's own fields alone (R127). -/
theorem State.takeInput_eq :
    s.takeInput = { s with input := s.takeInput.input, draws := s.takeInput.draws, events := s.takeInput.events } := by
  unfold State.takeInput
  split
  · rfl
  · rw [State.dropEvent_eq]

/-- A look at a blocked read's answer changes the model's own fields alone (R197). -/
theorem State.takeAnswer_eq :
    s.takeAnswer = { s with input := s.takeAnswer.input, draws := s.takeAnswer.draws, events := s.takeAnswer.events } := by
  unfold State.takeAnswer
  split <;> rfl

/-- Before the fetch a step changes the keyboard block and the model's own fields alone (R120, R238). -/
theorem State.beginStep_eq :
    s.beginStep = { s with kbd := s.beginStep.kbd, input := s.beginStep.input, draws := s.beginStep.draws,
                           waiting := false, events := s.beginStep.events } := by
  unfold State.beginStep
  split
  · rw [State.takeAnswer_eq]
  · rename_i h
    have h' : s.waiting = false := by simpa using h
    rw [State.takeInput_eq]
    simp [State.poll, h']

/-- A blocked step keeps the keyboard block: its poll is done (R126). -/
theorem State.beginStep_kbd_of_waiting (h : s.waiting = true) : s.beginStep.kbd = s.kbd := by
  simp only [State.beginStep, h, if_true]
  rw [State.takeAnswer_eq]

/-- The event that comes first, when it is no `step`. -/
theorem State.nextHostEvent?_eq_some {e : HostEvent} {t : State} (h : s.nextHostEvent? = some (e, t)) :
    s.waiting = false ∧ ∃ rest, s.events = .host e :: rest ∧ t = { s with events := rest } := by
  unfold State.nextHostEvent? at h
  split at h
  · rename_i rest hw he
    simp only [Option.some.injEq, Prod.mk.injEq] at h
    exact ⟨hw, rest, by rw [he, h.1], h.2.symm⟩
  · cases h

/-- Everything one transition can do: a host event; an idle step; a fetch fault; a decode error; an instruction (R8, R120). -/
theorem step_cases {o : Host.Outcome State Fault Refusal} (h : step s = o) :
    (∃ e t, s.nextHostEvent? = some (e, t) ∧ o = t.hostEvent e) ∨
    (s.nextHostEvent? = none ∧ s.gated = true ∧ o = .next s.dropEvent) ∨
    (s.nextHostEvent? = none ∧ s.gated = false ∧ s.beginStep.pc.toNat > 4094 ∧ o = .next s.beginStep.raiseFetch) ∨
    (∃ op e, s.nextHostEvent? = none ∧ s.gated = false ∧ s.beginStep.fetch? = some op ∧ decode op = .error e ∧
      o = .next s.beginStep.decodeErrorStep) ∨
    (∃ op i, s.nextHostEvent? = none ∧ s.gated = false ∧ s.beginStep.fetch? = some op ∧ decode op = .ok i ∧
      o = exec i s.beginStep) := by
  subst h
  unfold step
  split
  · rename_i e t he
    exact .inl ⟨e, t, he, rfl⟩
  · rename_i hn
    unfold stepEvent
    split
    · rename_i hg
      exact .inr (.inl ⟨hn, hg, rfl⟩)
    · rename_i hg
      have hg' : s.gated = false := by simpa using hg
      unfold fetchAndRun
      rcases State.fetch?_spec s.beginStep with ⟨hp, hf⟩ | ⟨hp, hf⟩
      · rw [hf]
        exact .inr (.inr (.inl ⟨hn, hg', hp, rfl⟩))
      · rw [hf]
        cases hd : decode (wordOfBytes (s.beginStep.byteAt s.beginStep.pc.toNat)
            (s.beginStep.byteAt (s.beginStep.pc.toNat + 1))) with
        | error e => exact .inr (.inr (.inr (.inl ⟨_, e, hn, hg', rfl, hd, by simp [hd]⟩)))
        | ok i => exact .inr (.inr (.inr (.inr ⟨_, i, hn, hg', rfl, hd, by simp [hd]⟩)))

/-- The state made ready to fetch has its `PC` where a whole word can be fetched (R64). -/
theorem State.readyToFetch_pc_le : s.readyToFetch.pc.toNat ≤ 4094 := by
  unfold State.readyToFetch
  by_cases h : s.pc.toNat > 4094
  · simp only [if_pos h]
    decide
  · simp only [if_neg h]
    omega

end Sys2Proof.Machine
end

