-- ==== Sys2Proof/Certificates/Slice0/Obligations.lean ====
section
/-!
DEFINITION. The statements for the provers, each from a numbered rule of the spec or from the sections its entry in
OBLIGATIONS.json cites. A docstring that names a decision D<n> or a log entry says that the clause is the spec's own choice or the
model's, not the source document's.
-/

open Sys2Proof Sys2Proof.Machine

/-! ### Encoding -/

/-- Decoding the encoded word gives the instruction back, every operand at every value (30_encoding.md sections 1 to 3). -/
def Obligations.DecodeOfEncode : Prop := ∀ i : Instr, decode (encode i) = .ok i

/-- A word that decodes is the encoding of what it decodes to: no two words share an instruction, and no bit is ignored
(30_encoding.md section 3). -/
def Obligations.EncodeOfDecode : Prop := ∀ (op : Word) (i : Instr), decode op = .ok i → encode i = op

/-- The decoder accepts a word exactly when some row's mask and match accept it (30_encoding.md section 3). -/
def Obligations.DecodesExactlyTheTable : Prop :=
  ∀ op : Word, (∃ i, decode op = .ok i) ↔ wellFormedWord op = true

/-- The patterns of the table are pairwise disjoint (30_encoding.md section 3). -/
def Obligations.TableRowsDisjoint : Prop :=
  opcodeRows.Pairwise (fun r t => ∀ op : Word, ¬ (r.matches op = true ∧ t.matches op = true))

/-- One word per family, written out from the pattern column, and two undefined words (30_encoding.md sections 3 and 4). That 01E0 is no
second spelling of 00E0, since group 0 compares the whole word, is the spec's decision D6 (R94, log entry 23). -/
def Obligations.SampleWordsDecode : Prop :=
  decode 0x00E0 = .ok .cls ∧ decode 0x00EE = .ok .ret ∧ decode 0x2ABC = .ok (.call 0xABC) ∧
  decode 0x3A7F = .ok (.seImm 10 0x7F) ∧ decode 0x5120 = .ok (.seReg 1 2) ∧ decode 0x6005 = .ok (.ldImm 0 5) ∧
  decode 0x8ABE = .ok (.shlReg 10 11) ∧ decode 0xA123 = .ok (.ldI 0x123) ∧ decode 0xC30F = .ok (.rnd 3 0x0F) ∧
  decode 0xD015 = .ok (.drw 0 1 5) ∧ decode 0xE29E = .ok (.skp 2) ∧ decode 0xF107 = .ok (.ldVxDT 1) ∧
  decode 0xF255 = .ok (.storeRegs 2) ∧ decode 0x01E0 = .error .group0 ∧ decode 0xF11E = .error .groupF

/-- Which words are undefined, group by group (30_encoding.md section 4; group 0 compares the whole word, D6). -/
def Obligations.UndefinedWordsByGroup : Prop :=
  ∀ op : Word,
    (decode op = .error .group0 ↔ fieldG op = 0 ∧ op ≠ 0x00E0 ∧ op ≠ 0x00EE) ∧
    (decode op = .error .group5 ↔ fieldG op = 5 ∧ fieldN op ≠ 0) ∧
    (decode op = .error .group8 ↔ fieldG op = 8 ∧ (fieldN op).toNat ∈ [8, 9, 10, 11, 12, 13, 15]) ∧
    (decode op = .error .group9 ↔ fieldG op = 9 ∧ fieldN op ≠ 0) ∧
    (decode op = .error .groupE ↔ fieldG op = 14 ∧ fieldKK op ≠ 0x9E ∧ fieldKK op ≠ 0xA1) ∧
    (decode op = .error .groupF ↔ fieldG op = 15 ∧
      (fieldKK op).toNat ∉ [0x07, 0x0A, 0x15, 0x18, 0x29, 0x33, 0x55, 0x65]) ∧
    decode op ≠ .error .truncated

/-! ### The step cycle -/

/-- When a `step` comes next in a running machine and the two bytes at the `PC` decode to `i`, the step is `exec i` of the state
after phase 2, and it reports `Fatal` with the cause and the record, `Halted`, nothing yet (the step is blocked in `Fx0A`), or `Ok`, as
that next state says. Phase 2 changes the keyboard block and the model's own fields alone, and for a new step it is the poll of the
answers taken (40_step_dispatch.md, the step cycle and the results of a step; D2, D10, D34, log entries 13, 15, 18). -/
def Obligations.StepRunsDecodedInstruction : Prop :=
  ∀ (s : State) (i : Instr), s.nextHostEvent? = none → s.Running → s.pc.toNat ≤ 4094 →
    decodeBytes [s.byteAt s.pc.toNat, s.byteAt (s.pc.toNat + 1)] = .ok (i, []) →
    step s = exec i s.beginStep ∧
    (∃ t, exec i s.beginStep = .next t ∧
      (t.fault ≠ .noFault → stepResult s = some (.fatal t.fault t.faultInfo)) ∧
      (t.fault = .noFault → t.haltRequested = true → stepResult s = some .halted) ∧
      (t.fault = .noFault → t.haltRequested = false → t.waiting = true → stepResult s = none) ∧
      (t.fault = .noFault → t.haltRequested = false → t.waiting = false → stepResult s = some .ok)) ∧
    s.beginStep = { s with kbd := s.beginStep.kbd, input := s.beginStep.input, draws := s.beginStep.draws, waiting := false,
                           events := s.beginStep.events } ∧
    (s.waiting = false → s.beginStep.kbd = s.kbd.poll keySampleMode s.beginStep.input.keysDown) ∧
    (s.waiting = true → s.beginStep.kbd = s.kbd)

/-- Where the answers a step works with come from. A new step with no pending event draws fresh free values, those of the draw counter,
which goes on by one; one with a pending `step` event takes that event's; an answer nobody waits for is dropped. A resumed blocked step
renews the answer of the blocking read alone, from a pending `answer` event or as a free value, and polls nothing. All of it is the
model's own form (log entries 7 to 13; 45_sprite_memory.md section 1, 44_keyboard.md section 3). -/
def Obligations.StepDrawsFreshInputs : Prop :=
  ∀ s : State, s.nextHostEvent? = none → s.Running →
    step s = fetchAndRun s.beginStep ∧
    (s.waiting = false →
      (s.events = [] → s.beginStep.input = StepInput.free s.draws ∧ s.beginStep.draws = s.draws + 1 ∧ s.beginStep.events = []) ∧
      (∀ input rest, s.events = .step input :: rest →
        s.beginStep.input = input ∧ s.beginStep.draws = s.draws ∧ s.beginStep.events = rest) ∧
      (∀ a rest, s.events = .answer a :: rest → s.beginStep.input = StepInput.free s.draws ∧
        s.beginStep.draws = s.draws + 1 ∧ s.beginStep.events = rest)) ∧
    (s.waiting = true →
      (∀ a rest, s.events = .answer a :: rest →
        s.beginStep = { s with input := { s.input with keyAnswer := a }, waiting := false, events := rest }) ∧
      ((∀ a rest, s.events ≠ .answer a :: rest) →
        s.beginStep = { s with input := { s.input with keyAnswer := Config.keyAnswer s.draws }, draws := s.draws + 1,
                               waiting := false }))

/-- After a fatal fault or a halt a `step` changes nothing but uses up the pending event, asks nobody and answers `Idle`
(40_step_dispatch.md, run gating; D30). -/
def Obligations.GatedStepIsIdle : Prop :=
  ∀ s : State, s.nextHostEvent? = none → (s.fault ≠ .noFault ∨ s.haltRequested = true) →
    step s = .next { s with events := s.dropEvent.events } ∧ stepResult s = some .idle

/-- However many steps follow a fatal fault or a halt, no state changes (10_state.md section 3, the invariants). -/
def Obligations.GatedRunNeverChanges : Prop :=
  ∀ (s : State) (k : Nat), s.events = [] → (s.fault ≠ .noFault ∨ s.haltRequested = true) →
    Host.Core.run Sys2Proof.core k s = .next s

/-- Once `fault` or `haltRequested` is set only a pending `init` changes the machine other than by `load`, ticks and `ackDraw`:
registers, `PC`, stack, keyboard, `fault`, `faultInfo` and `haltRequested` stay (10_state.md section 2; 60_exceptions.md section 3). -/
def Obligations.OnlyInitLeavesTheGate : Prop :=
  ∀ s t : State, s.gated = true → step s = .next t →
    (s.waiting = false ∧ ∃ rest, s.events = .host .init :: rest) ∨
    (t.fault = s.fault ∧ t.faultInfo = s.faultInfo ∧ t.haltRequested = s.haltRequested ∧ t.v = s.v ∧ t.i = s.i ∧
      t.pc = s.pc ∧ t.stack = s.stack ∧ t.sp = s.sp ∧ t.kbd = s.kbd)

/-- A step with `PC > 4094` ends in `FetchAddressFault`; phase 2 stands (20_memory.md section 2; 60_exceptions.md; D5). -/
def Obligations.FetchPastMemoryFaults : Prop :=
  ∀ s : State, s.nextHostEvent? = none → s.Running → s.pc.toNat > 4094 →
    step s = .next (s.beginStep.faulted .fetchAddressFault 0
      (if s.pc.toNat = 4095 then 4096 else BitVec.ofNat 17 s.pc.toNat)) ∧
    stepResult s = some (.fatal .fetchAddressFault
      { pc := s.pc, op := 0, addr := if s.pc.toNat = 4095 then 4096 else BitVec.ofNat 17 s.pc.toNat })

/-- An undefined word is reported with its address and skipped: `PC + 2`, nothing else after phase 2 (40_step_dispatch.md, decode
error; D1, D34). -/
def Obligations.UndefinedWordIsReported : Prop :=
  ∀ (s : State) (e : Undefined), s.nextHostEvent? = none → s.Running → s.pc.toNat ≤ 4094 →
    decode (wordOfBytes (s.byteAt s.pc.toNat) (s.byteAt (s.pc.toNat + 1))) = .error e →
    step s = .next { s.beginStep with pc := s.pc + 2 } ∧
    stepResult s = some (.decodeError s.pc (wordOfBytes (s.byteAt s.pc.toNat) (s.byteAt (s.pc.toNat + 1))))

/-- A word stored at the `PC` is the word the next fetch reads (20_memory.md section 3, instruction-fetch coherence). -/
def Obligations.StoredWordIsFetched : Prop :=
  ∀ (s : State) (op : Word), s.MemoryWf → s.pc.toNat ≤ 4094 → (s.placeWord op).fetch? = some op

/-- The instruction placed by `withFetchWord` is the one the very next step runs, from any state (log entry 12). -/
def Obligations.PlacedInstructionRunsNext : Prop :=
  ∀ (s : State) (w : Nat) (i : Instr), s.MemoryWf → decodeTableWord 16 w = some i →
    step (s.withFetchWord 16 w) = exec i (s.withFetchWord 16 w).beginStep

/-! ### Arithmetic and registers -/

/-- `6xkk` (R141) and `7xkk` (R142): the constant; the sum modulo 256, no flag. -/
def Obligations.ImmediateForms : Prop :=
  ∀ (s : State) (x : Reg) (kk : Byte),
    (∃ t, exec (.ldImm x kk) s = .next t ∧ t.getV x = kk ∧ RegsKeptBut [x] s t ∧ OnlyVAndPc s t ∧ t.pc = s.pc + 2) ∧
    (∃ t, exec (.addImm x kk) s = .next t ∧ (t.getV x).toNat = ((s.getV x).toNat + kk.toNat) % 256 ∧
      RegsKeptBut [x] s t ∧ OnlyVAndPc s t ∧ t.pc = s.pc + 2)

/-- `8xy0` to `8xy3` (R143 to R146): copy and the bitwise operations, no flag. -/
def Obligations.CopyAndLogic : Prop :=
  ∀ (s : State) (x y : Reg),
    (∃ t, exec (.ldReg x y) s = .next t ∧ t.getV x = s.getV y ∧ RegsKeptBut [x] s t ∧ OnlyVAndPc s t ∧ t.pc = s.pc + 2) ∧
    (∃ t, exec (.orReg x y) s = .next t ∧ t.getV x = s.getV x ||| s.getV y ∧ RegsKeptBut [x] s t ∧ OnlyVAndPc s t ∧
      t.pc = s.pc + 2) ∧
    (∃ t, exec (.andReg x y) s = .next t ∧ t.getV x = s.getV x &&& s.getV y ∧ RegsKeptBut [x] s t ∧ OnlyVAndPc s t ∧
      t.pc = s.pc + 2) ∧
    (∃ t, exec (.xorReg x y) s = .next t ∧ t.getV x = s.getV x ^^^ s.getV y ∧ RegsKeptBut [x] s t ∧ OnlyVAndPc s t ∧
      t.pc = s.pc + 2)

/-- The ALU's table (R140), in bit-vector arithmetic and comparisons; the function codes that are no instruction; each `8xyN` instruction
applies it to `V[x]` and `V[y]` as they were (for `x` = VF, where the order of the two writes counts, see the statements below); and
`7xkk` through the same adder, its flag discarded. -/
def Obligations.AluTable : Prop :=
  (∀ a b : Byte,
    alu .copy a b = (b, none) ∧ alu .bitOr a b = (a ||| b, none) ∧ alu .bitAnd a b = (a &&& b, none) ∧
    alu .bitXor a b = (a ^^^ b, none) ∧
    alu .add a b = (a + b, some (decide (a.toNat + b.toNat > 255))) ∧
    alu .sub a b = (a - b, some (decide (b ≤ a))) ∧
    alu .shr a b = (b >>> 1, some b[0]) ∧
    alu .subn a b = (b - a, some (decide (a ≤ b))) ∧
    alu .shl a b = (b <<< 1, some b[7])) ∧
  (∀ (x y : Reg) (n : BitVec 4), n.toNat ∈ [8, 9, 10, 11, 12, 13, 15] → decode (formatXYN 8 x y n) = .error .group8) ∧
  (∀ (f : AluOp) (x y : Reg), decode (formatXYN 8 x y f.code) = .ok (f.instr x y)) ∧
  (∀ (f : AluOp) (s : State) (x y : Reg), x ≠ vf → ∃ t, exec (f.instr x y) s = .next t ∧
    t.getV x = (alu f (s.getV x) (s.getV y)).1 ∧
    t.getV vf = (match (alu f (s.getV x) (s.getV y)).2 with | none => s.getV vf | some c => flagByte c)) ∧
  (∀ (s : State) (x : Reg) (kk : Byte), ∃ t, exec (.addImm x kk) s = .next t ∧ t.getV x = (alu .add (s.getV x) kk).1 ∧
    RegsKeptBut [x] s t)

/-- `8xy4`: the sum modulo 256 and the carry; the flag is written last, so for `x` = VF the sum is lost (41_arithmetic.md section 4;
the order is D17, log entry 21). -/
def Obligations.AddSetsCarry : Prop :=
  ∀ (s : State) (x y : Reg), ∃ t, exec (.addReg x y) s = .next t ∧
    (x ≠ vf → (t.getV x).toNat = ((s.getV x).toNat + (s.getV y).toNat) % 256) ∧
    t.getV vf = (if (s.getV x).toNat + (s.getV y).toNat > 255 then 1 else 0) ∧
    RegsKeptBut [x, vf] s t ∧ OnlyVAndPc s t ∧ t.pc = s.pc + 2

/-- `8xy5` and `8xy7`: the difference modulo 256, VF = 1 iff there is no borrow, the flag last (41_arithmetic.md section 4; D17, log
entry 21). -/
def Obligations.SubtractSetsNoBorrow : Prop :=
  ∀ (s : State) (x y : Reg),
    (∃ t, exec (.subReg x y) s = .next t ∧ (x ≠ vf → t.getV x = s.getV x - s.getV y) ∧
      t.getV vf = (if s.getV y ≤ s.getV x then 1 else 0) ∧ RegsKeptBut [x, vf] s t ∧ OnlyVAndPc s t ∧ t.pc = s.pc + 2) ∧
    (∃ t, exec (.subnReg x y) s = .next t ∧ (x ≠ vf → t.getV x = s.getV y - s.getV x) ∧
      t.getV vf = (if s.getV x ≤ s.getV y then 1 else 0) ∧ RegsKeptBut [x, vf] s t ∧ OnlyVAndPc s t ∧ t.pc = s.pc + 2)

/-- `8xy6` and `8xyE`: `V[y]` shifted by one into `V[x]`, the bit shifted out into VF, the flag last (41_arithmetic.md section 4; D17,
log entry 21). -/
def Obligations.ShiftsReadVy : Prop :=
  ∀ (s : State) (x y : Reg),
    (∃ t, exec (.shrReg x y) s = .next t ∧ (x ≠ vf → (t.getV x).toNat = (s.getV y).toNat / 2) ∧
      (t.getV vf).toNat = (s.getV y).toNat % 2 ∧ RegsKeptBut [x, vf] s t ∧ OnlyVAndPc s t ∧ t.pc = s.pc + 2) ∧
    (∃ t, exec (.shlReg x y) s = .next t ∧ (x ≠ vf → (t.getV x).toNat = 2 * (s.getV y).toNat % 256) ∧
      (t.getV vf).toNat = (s.getV y).toNat / 128 ∧ RegsKeptBut [x, vf] s t ∧ OnlyVAndPc s t ∧ t.pc = s.pc + 2)

/-! ### Control flow and the stack -/

/-- `00E0` (R160): every pixel off, `drawRequested`, `PC + 2`, nothing else. -/
def Obligations.ClearScreen : Prop :=
  ∀ s : State, ∃ t, exec .cls s = .next t ∧ (∀ p : Pixel, Display.lit t.display p = false) ∧ t.drawRequested = true ∧
    t.pc = s.pc + 2 ∧ t = { s with display := t.display, drawRequested := t.drawRequested, pc := t.pc }

/-- `1nnn` (R162) and `Bnnn` (R168): the target is taken as it is, the indexed sum does not wrap; a target above 4094 makes the next
fetch fault. -/
def Obligations.Jumps : Prop :=
  ∀ (s : State) (nnn : BitVec 12),
    (∃ t, exec (.jp nnn) s = .next t ∧ t.pc.toNat = nnn.toNat ∧ t = { s with pc := t.pc } ∧
      (nnn = 0xFFF → t.fetch? = none)) ∧
    (∃ t, exec (.jpV0 nnn) s = .next t ∧ t.pc.toNat = (s.getV 0).toNat + nnn.toNat ∧ t.pc.toNat ≤ 0x10FE ∧
      t = { s with pc := t.pc } ∧ (t.pc.toNat > 4094 → t.fetch? = none))

/-- `3xkk`, `4xkk` (R164, R165). -/
def Obligations.SkipOnImmediate : Prop :=
  ∀ (s : State) (x : Reg) (kk : Byte),
    (s.getV x = kk → exec (.seImm x kk) s = .next { s with pc := s.pc + 4 } ∧
      exec (.sneImm x kk) s = .next { s with pc := s.pc + 2 }) ∧
    (s.getV x ≠ kk → exec (.seImm x kk) s = .next { s with pc := s.pc + 2 } ∧
      exec (.sneImm x kk) s = .next { s with pc := s.pc + 4 })

/-- `5xy0`, `9xy0` (R166, R167), and the words beside them that are decode errors. -/
def Obligations.SkipOnRegisters : Prop :=
  (∀ (s : State) (x y : Reg),
    (s.getV x = s.getV y → exec (.seReg x y) s = .next { s with pc := s.pc + 4 } ∧
      exec (.sneReg x y) s = .next { s with pc := s.pc + 2 }) ∧
    (s.getV x ≠ s.getV y → exec (.seReg x y) s = .next { s with pc := s.pc + 2 } ∧
      exec (.sneReg x y) s = .next { s with pc := s.pc + 4 })) ∧
  (∀ (x y : Reg) (n : BitVec 4), n ≠ 0 →
    decode (formatXYN 5 x y n) = .error .group5 ∧ decode (formatXYN 9 x y n) = .error .group9)

/-- `2nnn` with room on the stack pushes the address after the call and goes to `nnn`; `00EE` with a pending call goes to the last pushed
address and leaves the slots (42_control_flow.md sections 1 and 2; the slot is D29, log entry 25). -/
def Obligations.CallPushesReturnPops : Prop :=
  (∀ (s : State) (nnn : BitVec 12) (_ : s.sp.val < 16), ∃ t, exec (.call nnn) s = .next t ∧
    t.sp.val = s.sp.val + 1 ∧ t.stack[s.sp.val] = s.pc + 2 ∧
    (∀ k : Fin 16, k.val ≠ s.sp.val → t.stack[k.val] = s.stack[k.val]) ∧
    t.pc.toNat = nnn.toNat ∧ t = { s with stack := t.stack, sp := t.sp, pc := t.pc }) ∧
  (∀ (s : State) (_ : 0 < s.sp.val), ∃ t, exec .ret s = .next t ∧ t.sp.val = s.sp.val - 1 ∧
    t.pc = s.stack[s.sp.val - 1] ∧ t = { s with sp := t.sp, pc := t.pc })

/-- `2nnn` on a full stack and `00EE` on an empty one: the fatal fault, and nothing else changed (60_exceptions.md sections 1 and 3; D2,
D3, log entry 16). -/
def Obligations.StackFaults : Prop :=
  (∀ (s : State) (nnn : BitVec 12), s.sp = 16 →
    exec (.call nnn) s = .next (s.faulted .stackOverflow (encode (.call nnn)) 0)) ∧
  (∀ s : State, s.sp = 0 → exec .ret s = .next (s.faulted .stackUnderflow 0x00EE 0))

/-- Any number of calls that fit on the stack succeed, and as many returns bring the machine back behind the first call, with every live
slot as it was and nothing else changed but dead slots; the next call on a stack filled so faults (42_control_flow.md section 2, the
stack discipline; D2, D29). -/
def Obligations.StackDiscipline : Prop :=
  ∀ (s : State) (targets : List (BitVec 12)), s.sp.val + targets.length ≤ 16 →
    ∃ t, execAll (targets.map Instr.call) s = .next t ∧ t.sp.val = s.sp.val + targets.length ∧
      (s.sp.val + targets.length = 16 → ∀ nnn, ∃ u, exec (.call nnn) t = .next u ∧ u.fault = .stackOverflow) ∧
      ∃ u, execAll (List.replicate targets.length Instr.ret) t = .next u ∧ u.sp = s.sp ∧
        u.pc = (if targets = [] then s.pc else s.pc + 2) ∧
        (∀ k : Fin 16, k.val < s.sp.val → u.stack[k.val] = s.stack[k.val]) ∧ u = { s with stack := u.stack, pc := u.pc }

/-! ### Timers -/

/-- `Fx07`, `Fx15`, `Fx18` (R181 to R183). -/
def Obligations.TimerInstructions : Prop :=
  ∀ (s : State) (x : Reg),
    (∃ t, exec (.ldVxDT x) s = .next t ∧ t.getV x = s.delay ∧ RegsKeptBut [x] s t ∧ OnlyVAndPc s t ∧ t.pc = s.pc + 2) ∧
    exec (.ldDTVx x) s = .next { s with delay := s.getV x, pc := s.pc + 2 } ∧
    exec (.ldSTVx x) s = .next { s with sound := s.getV x, pc := s.pc + 2 }

/-- After `k` ticks each timer has gone down by `k`, but not below 0, independently; nothing else has changed (43_timers.md sections 1
and 2). -/
def Obligations.TicksCountDownToZero : Prop :=
  ∀ (s : State) (k : Nat),
    (State.tickTimers^[k] s).delay.toNat = s.delay.toNat - k ∧ (State.tickTimers^[k] s).sound.toNat = s.sound.toNat - k ∧
    State.tickTimers^[k] s =
      { s with delay := (State.tickTimers^[k] s).delay, sound := (State.tickTimers^[k] s).sound }

/-- A pending event other than `step` is the next transition, after a fault or a halt too: a tick counts both timers down; a load places
its image or changes nothing; an acknowledgement clears `drawRequested`; an `init` restores the reset state of the machine and the
display, and only the parameters (R260), the driver's pending events and the draw counter go on; a `deinit` ends the run (00_scope.md section 4; D22, D24, D28;
log entries 12, 14, 28). -/
def Obligations.PendingEventsHappenNext : Prop :=
  ∀ (s : State) (rest : List Event), s.waiting = false →
    (s.events = .host .tickTimers :: rest → ∃ t, step s = .next t ∧ t.delay.toNat = s.delay.toNat - 1 ∧
      t.sound.toNat = s.sound.toNat - 1 ∧ t = { s with events := rest, delay := t.delay, sound := t.sound }) ∧
    (∀ bytes, s.events = .host (.load bytes) :: rest →
      step s = .next { s with events := rest, memory := (s.load bytes).memory }) ∧
    (s.events = .host .ackDraw :: rest → step s = .next { s with events := rest, drawRequested := false }) ∧
    (s.events = .host .init :: rest → step s = .next { State.resetWith s.params with events := rest, draws := s.draws }) ∧
    (s.events = .host .deinit :: rest → step s = .fault .deinitialised)

/-! ### Keyboard -/

/-- The FIFO as a list: `enqueue` appends at the tail or drops when 16 are queued, `dequeue` takes the head; neither touches a latch
(44_keyboard.md section 2; the layout is D11). -/
def Obligations.FifoIsBoundedQueue : Prop :=
  ∀ (k : Keyboard) (key : Key),
    (k.qCount.val < 16 → (k.enqueue key).entries = k.entries ++ [key]) ∧
    (k.qCount.val = 16 → (k.enqueue key).entries = k.entries) ∧
    (k.enqueue key).keyState = k.keyState ∧ (k.enqueue key).keyPrev = k.keyPrev ∧
    (0 < k.qCount.val → k.entries = k.dequeue.1 :: k.dequeue.2.entries) ∧
    k.dequeue.2.keyState = k.keyState ∧ k.dequeue.2.keyPrev = k.keyPrev ∧ k.entries.length = k.qCount.val

/-- The machine's poll latches every key that went down since the last poll and no other, never clears a latch, and remembers the samples
(44_keyboard.md section 2; that the machine samples edges is D9, log entry 18). -/
def Obligations.PollLatchesEdges : Prop :=
  ∀ (k : Keyboard) (down : Vector Bool 16) (key : Key),
    (k.poll keySampleMode down).latched key = (k.latched key || (down[key.val] && !k.keyPrev[key.val])) ∧
    (k.poll keySampleMode down).keyPrev = down

/-- The machine's poll appends the keys that went down in ascending order, dropping what does not fit into 16 entries (44_keyboard.md section 2;
D9, D10). -/
def Obligations.PollQueuesEdges : Prop :=
  ∀ (k : Keyboard) (down : Vector Bool 16),
    (k.poll keySampleMode down).entries = (k.entries ++ k.edges down).take 16

/-- `Ex9E` and `ExA1` skip on the latch of key `V[x][3:0]`, set or not set, and leave that latch clear; the other latches, the samples
and the FIFO stay (44_keyboard.md section 3; the low nibble is D8). -/
def Obligations.KeySkipsConsumeTheLatch : Prop :=
  ∀ (s : State) (x : Reg), ∃ t u, exec (.skp x) s = .next t ∧ exec (.sknp x) s = .next u ∧
    t.pc = s.pc + (if s.kbd.latched (lowNibble (s.getV x)) then 4 else 2) ∧
    u.pc = s.pc + (if s.kbd.latched (lowNibble (s.getV x)) then 2 else 4) ∧
    (lowNibble (s.getV x)).val = (s.getV x).toNat % 16 ∧
    (∀ key, t.kbd.latched key = (if key = lowNibble (s.getV x) then false else s.kbd.latched key)) ∧
    t.kbd = { s.kbd with keyState := t.kbd.keyState } ∧ t = { s with kbd := t.kbd, pc := t.pc } ∧
    u = { s with kbd := t.kbd, pc := u.pc }

/-- `Fx0A` with a queued event: the oldest goes to `V[x]` at once; no latch is tested or cleared (44_keyboard.md section 3). -/
def Obligations.KeyWaitTakesOldestEvent : Prop :=
  ∀ (s : State) (x : Reg) (key : Key) (rest : List Key), s.kbd.entries = key :: rest →
    ∃ t, exec (.ldVxK x) s = .next t ∧ (t.getV x).toNat = key.val ∧ RegsKeptBut [x] s t ∧ t.kbd.entries = rest ∧
      t.kbd.keyState = s.kbd.keyState ∧ t.kbd.keyPrev = s.kbd.keyPrev ∧ t.pc = s.pc + 2 ∧
      t = { s with v := t.v, kbd := t.kbd, pc := t.pc }

/-- `Fx0A` with an empty queue: a key goes to `V[x]` alone and is neither latched nor queued; `quit` sets `haltRequested`, leaves `PC`
and gives `V[x]` a value about which nothing is said; with no answer yet nothing changes but the model's mark (44_keyboard.md section
3; D12, D13; log entries 10 and 13). -/
def Obligations.KeyWaitBlocks : Prop :=
  ∀ (s : State) (x : Reg), s.kbd.entries = [] →
    (∀ key, s.input.keyAnswer = some (.key key) → ∃ t, exec (.ldVxK x) s = .next t ∧ (t.getV x).toNat = key.val ∧
      RegsKeptBut [x] s t ∧ OnlyVAndPc s t ∧ t.pc = s.pc + 2) ∧
    (s.input.keyAnswer = some .quit → ∃ t, exec (.ldVxK x) s = .next t ∧ t.haltRequested = true ∧ RegsKeptBut [x] s t ∧
      t = { s with v := t.v, haltRequested := true }) ∧
    (s.input.keyAnswer = none → exec (.ldVxK x) s = .next { s with waiting := true })

/-- While a step is blocked no other event happens, the keyboard, the timers and the memory stay, and as long as no answer has come
everything does but the model's own fields (44_keyboard.md section 3; 60_exceptions.md section 4; log entry 13). -/
def Obligations.BlockedStepKeepsState : Prop :=
  ∀ s t : State, s.WaitsInKeyRead → s.waiting = true → step s = .next t →
    t.kbd = s.kbd ∧ t.delay = s.delay ∧ t.sound = s.sound ∧ t.memory = s.memory ∧
    (t.waiting = true → t = { s with input := t.input, draws := t.draws, events := t.events })

/-- A latch is cleared by no instruction but `Ex9E` or `ExA1` naming that key, and set by none (44_keyboard.md section 2, the per-key
states; the low nibble is D8). -/
def Obligations.OnlyConsumptionClearsALatch : Prop :=
  ∀ (i : Instr) (s t : State) (key : Key), exec i s = .next t → t.kbd.latched key ≠ s.kbd.latched key →
    s.kbd.latched key = true ∧ ∃ x, (i = .skp x ∨ i = .sknp x) ∧ lowNibble (s.getV x) = key

/-! ### Index register, random, sprites, memory -/

/-- `Annn` (R210). -/
def Obligations.LoadIndex : Prop :=
  ∀ (s : State) (nnn : BitVec 12), ∃ t, exec (.ldI nnn) s = .next t ∧ t.i.toNat = nnn.toNat ∧ t.pc = s.pc + 2 ∧
    t = { s with i := t.i, pc := t.pc }

/-- `Cxkk`: the step's random byte, whatever it is, masked by `kk`; a bit that is 0 in `kk` is 0 in `V[x]` (45_sprite_memory.md section
1; the byte is a free value, D21, log entry 7). -/
def Obligations.RandomIsMasked : Prop :=
  ∀ (s : State) (x : Reg) (kk : Byte), ∃ t, exec (.rnd x kk) s = .next t ∧ t.getV x = s.input.randomByte &&& kk ∧
    (∀ b, kk.getLsbD b = false → (t.getV x).getLsbD b = false) ∧ RegsKeptBut [x] s t ∧ OnlyVAndPc s t ∧ t.pc = s.pc + 2

/-- `Dxyn` in range, on a screen of any size: every set bit of the sprite toggles its pixel, wrapping each axis, and VF says whether some
toggle met a lit pixel: one lit before, or one a small screen brings twice. Where the screen is at least 8 wide and `n` high, that is:
exactly the pixels under a set bit are inverted, and VF says whether one of them was lit. `drawRequested` is raised also when nothing was
toggled (45_sprite_memory.md section 2; the geometry is D19, the display in the state D25: log entries 5 and 6). -/
def Obligations.DrawInvertsTheSprite : Prop :=
  ∀ (s : State) (x y : Reg) (n : BitVec 4), (n = 0 ∨ s.i.toNat + n.toNat ≤ 4096) →
    ∃ t, exec (.drw x y n) s = .next t ∧
      (∀ p, Display.lit t.display p = (Display.lit s.display p ^^ decide (s.spriteHits x y n.toNat p % 2 = 1))) ∧
      ((∃ p, 0 < s.spriteHits x y n.toNat p ∧ (Display.lit s.display p = true ∨ 2 ≤ s.spriteHits x y n.toNat p)) →
        t.getV vf = 1) ∧
      ((∀ p, 0 < s.spriteHits x y n.toNat p → Display.lit s.display p = false ∧ s.spriteHits x y n.toNat p = 1) →
        t.getV vf = 0) ∧
      (8 ≤ (s.params.screenW : Nat) → n.toNat ≤ (s.params.screenH : Nat) →
        (∀ p, s.InSprite x y n.toNat p → Display.lit t.display p = !Display.lit s.display p) ∧
        (∀ p, ¬ s.InSprite x y n.toNat p → Display.lit t.display p = Display.lit s.display p) ∧
        ((∃ p, s.InSprite x y n.toNat p ∧ Display.lit s.display p = true) → t.getV vf = 1) ∧
        ((∀ p, s.InSprite x y n.toNat p → Display.lit s.display p = false) → t.getV vf = 0)) ∧
      t.drawRequested = true ∧ t.pc = s.pc + 2 ∧ RegsKeptBut [vf] s t ∧
      t = { s with v := t.v, display := t.display, drawRequested := t.drawRequested, pc := t.pc }

/-- `Fx29`: the address of the glyph of the low nibble (45_sprite_memory.md section 3; the mask is D7, log entry 20). -/
def Obligations.FontAddress : Prop :=
  ∀ (s : State) (x : Reg), ∃ t, exec (.ldF x) s = .next t ∧ t.i.toNat = 5 * ((s.getV x).toNat % 16) ∧ t.pc = s.pc + 2 ∧
    t = { s with i := t.i, pc := t.pc }

/-- `Fx33` in range: three decimal digits of `V[x]`, hundreds first, to `memory[I..I+3)`; every other byte, and everything else, stays
(45_sprite_memory.md section 3). -/
def Obligations.BcdDigitsStored : Prop :=
  ∀ (s : State) (x : Reg), s.MemoryWf → s.i.toNat + 2 ≤ 4095 →
    ∃ t, exec (.ldB x) s = .next t ∧
      100 * (t.byteAt s.i.toNat).toNat + 10 * (t.byteAt (s.i.toNat + 1)).toNat + (t.byteAt (s.i.toNat + 2)).toNat =
        (s.getV x).toNat ∧
      (t.byteAt (s.i.toNat + 1)).toNat ≤ 9 ∧ (t.byteAt (s.i.toNat + 2)).toNat ≤ 9 ∧
      BytesKeptOutside s.i.toNat 3 s t ∧ OnlyMemoryAndPc s t ∧ t.pc = s.pc + 2

/-- `Fx55` in range: `V[0]` to `V[x]` to consecutive bytes from `I`; every other byte, and everything else, stays, `I` too
(45_sprite_memory.md section 3; D35). -/
def Obligations.RegistersStored : Prop :=
  ∀ (s : State) (x : Reg), s.MemoryWf → s.i.toNat + x.val ≤ 4095 →
    ∃ t, exec (.storeRegs x) s = .next t ∧ (∀ k : Reg, k ≤ x → t.byteAt (s.i.toNat + k.val) = s.getV k) ∧
      BytesKeptOutside s.i.toNat (x.val + 1) s t ∧ OnlyMemoryAndPc s t ∧ t.pc = s.pc + 2

/-- `Fx65` in range: consecutive bytes from `I` to `V[0]` to `V[x]`; the registers above `x`, and everything else, stay, `I` too
(45_sprite_memory.md section 3; D35). -/
def Obligations.RegistersLoaded : Prop :=
  ∀ (s : State) (x : Reg), s.i.toNat + x.val ≤ 4095 →
    ∃ t, exec (.loadRegs x) s = .next t ∧ (∀ k : Reg, k ≤ x → t.getV k = s.byteAt (s.i.toNat + k.val)) ∧
      (∀ k : Reg, x < k → t.getV k = s.getV k) ∧ OnlyVAndPc s t ∧ t.pc = s.pc + 2

/-- What `Fx55` stored, `Fx65` loads back, whatever the registers became between (45_sprite_memory.md section 3). It rests on `I` being
unchanged by `Fx55` (D35, log entry 33) and, for `I` below 80, on stores into the font being performed (D15, log entry 22). -/
def Obligations.StoreThenLoadRestoresRegisters : Prop :=
  ∀ (s : State) (x : Reg) (v : Vector Byte 16), s.MemoryWf → s.i.toNat + x.val ≤ 4095 →
    ∃ t u, exec (.storeRegs x) s = .next t ∧ exec (.loadRegs x) { t with v := v } = .next u ∧
      ∀ k : Reg, k ≤ x → u.getV k = s.getV k

/-- The four accessing instructions out of range: `DataAddressFault` with the lowest missing address, nothing else changed
(60_exceptions.md; 45_sprite_memory.md section 4; D4). -/
def Obligations.DataPastMemoryFaults : Prop :=
  ∀ (s : State) (x y : Reg) (n : BitVec 4),
    (n ≠ 0 → s.i.toNat + (n.toNat - 1) > 4095 → exec (.drw x y n) s =
      .next (s.faulted .dataAddressFault (encode (.drw x y n)) (BitVec.ofNat 17 (max s.i.toNat 4096)))) ∧
    (s.i.toNat + 2 > 4095 → exec (.ldB x) s =
      .next (s.faulted .dataAddressFault (encode (.ldB x)) (BitVec.ofNat 17 (max s.i.toNat 4096)))) ∧
    (s.i.toNat + x.val > 4095 → exec (.storeRegs x) s =
      .next (s.faulted .dataAddressFault (encode (.storeRegs x)) (BitVec.ofNat 17 (max s.i.toNat 4096)))) ∧
    (s.i.toNat + x.val > 4095 → exec (.loadRegs x) s =
      .next (s.faulted .dataAddressFault (encode (.loadRegs x)) (BitVec.ofNat 17 (max s.i.toNat 4096))))

/-- `load`: an image that fits is placed byte for byte at 512, every other byte and everything else stays; one that does not fit is
answered `LoadOversize` and changes nothing (20_memory.md section 4; D28). -/
def Obligations.LoadPlacesTheImage : Prop :=
  ∀ (s : State) (bytes : List Byte), s.MemoryWf →
    (bytes.length ≤ 3584 → loadAnswer bytes = .ok ∧
      (∀ (k : Nat) (h : k < bytes.length), (s.load bytes).byteAt (512 + k) = bytes[k]) ∧
      BytesKeptOutside 512 bytes.length s (s.load bytes) ∧ s.load bytes = { s with memory := (s.load bytes).memory }) ∧
    (bytes.length > 3584 → loadAnswer bytes = .loadOversize ∧ s.load bytes = s)

/-! ### Whole-machine rules -/

/-- An instruction that raises a fatal fault changes nothing but `fault` and `faultInfo`, which name its address and its word
(60_exceptions.md section 3; D2). -/
def Obligations.FatalFaultsArePrecise : Prop :=
  ∀ (i : Instr) (s t : State), s.fault = .noFault → exec i s = .next t → t.fault ≠ .noFault →
    t = { s with fault := t.fault, faultInfo := t.faultInfo } ∧ t.faultInfo.pc = s.pc ∧ t.faultInfo.op = encode i

/-- Which fatal fault each instruction can raise; all others raise none (60_exceptions.md section 3; D31). -/
def Obligations.EachInstructionHasAtMostOneFault : Prop :=
  ∀ (i : Instr) (s t : State), s.fault = .noFault → exec i s = .next t → t.fault ≠ .noFault →
    (t.fault = .stackOverflow ∧ s.sp = 16 ∧ ∃ nnn, i = .call nnn) ∨
    (t.fault = .stackUnderflow ∧ s.sp = 0 ∧ i = .ret) ∨
    (t.fault = .dataAddressFault ∧
      ((∃ x y n, i = .drw x y n) ∨ (∃ x, i = .ldB x) ∨ (∃ x, i = .storeRegs x) ∨ (∃ x, i = .loadRegs x)))

/-- No instruction but `Fx33` and `Fx55` changes the memory (20_memory.md section 1). -/
def Obligations.OnlyStoresChangeMemory : Prop :=
  ∀ (i : Instr) (s t : State), exec i s = .next t → t.memory ≠ s.memory → ∃ x, i = .ldB x ∨ i = .storeRegs x

/-- Which instructions change the stack, `I`, the timers, the display, `drawRequested`, `haltRequested`; no instruction touches the driver's and the
collaborators' side, nor the parameters (10_state.md sections 2 and 4; 70_reset_and_hazards.md section 1). -/
def Obligations.WhoWritesWhat : Prop :=
  ∀ (i : Instr) (s t : State), exec i s = .next t →
    (t.stack ≠ s.stack → ∃ nnn, i = .call nnn) ∧
    (t.sp ≠ s.sp → i = .ret ∨ ∃ nnn, i = .call nnn) ∧
    (t.i ≠ s.i → (∃ nnn, i = .ldI nnn) ∨ ∃ x, i = .ldF x) ∧
    (t.delay ≠ s.delay → ∃ x, i = .ldDTVx x) ∧
    (t.sound ≠ s.sound → ∃ x, i = .ldSTVx x) ∧
    (t.display ≠ s.display → i = .cls ∨ ∃ x y n, i = .drw x y n) ∧
    (t.drawRequested ≠ s.drawRequested → t.drawRequested = true ∧ (i = .cls ∨ ∃ x y n, i = .drw x y n)) ∧
    (t.haltRequested ≠ s.haltRequested → t.haltRequested = true ∧ ∃ x, i = .ldVxK x) ∧
    t.params = s.params ∧ t.input = s.input ∧ t.draws = s.draws ∧ t.events = s.events

/-- VF is changed only by the six flag instructions and by instructions that name register 15 as `x` (10_state.md section 2, VF). -/
def Obligations.WhoWritesVF : Prop :=
  ∀ (i : Instr) (s t : State), exec i s = .next t → t.getV vf ≠ s.getV vf →
    (∃ x y, i = .addReg x y ∨ i = .subReg x y ∨ i = .shrReg x y ∨ i = .subnReg x y ∨ i = .shlReg x y) ∨
    (∃ x y n, i = .drw x y n) ∨
    (∃ kk, i = .ldImm vf kk ∨ i = .addImm vf kk ∨ i = .rnd vf kk) ∨
    (∃ y, i = .ldReg vf y ∨ i = .orReg vf y ∨ i = .andReg vf y ∨ i = .xorReg vf y) ∨
    i = .ldVxDT vf ∨ i = .ldVxK vf ∨ i = .loadRegs vf

/-! ### Invariants and reset -/

/-- Every transition keeps the memory in its canonical form (log entry 2; 20_memory.md sections 1 and 2). -/
def Obligations.StepKeepsMemoryCanonical : Prop :=
  ∀ s t : State, s.MemoryWf → step s = .next t → t.MemoryWf

/-- Every transition keeps `I <= 0x0FFF`, `PC <= 0x10FE` and every live stack entry at most 4096 (10_state.md section 3, the
invariants). -/
def Obligations.StepKeepsBounds : Prop := ∀ s t : State, s.InBounds → step s = .next t → t.InBounds

/-- Every transition keeps this: a blocked step stands at a `Fx0A` word, with an empty FIFO, in a running machine (44_keyboard.md
section 3; log entry 13). -/
def Obligations.StepKeepsWaitState : Prop := ∀ s t : State, s.WaitsInKeyRead → step s = .next t → t.WaitsInKeyRead

/-- The state after `init` meets the invariants, for all parameters. The bound on `PC` is the spec's (10_state.md section 3); the
canonical memory and frame buffer (log entries 2, 5) and the wait state (log entry 13) are the model's own; that `I` is 0 is D14 (log
entry 1). -/
def Obligations.ResetMeetsInvariants : Prop :=
  ∀ p : Parameters, (State.resetWith p).MemoryWf ∧ (State.resetWith p).InBounds ∧ (State.resetWith p).WaitsInKeyRead ∧
    Display.wf p (State.resetWith p).display = true

/-- What `init` leaves, for all parameters: the font at [0, 80), zero above it, `PC` = 512, no pending call, a running machine with
nothing pending, and the zeros and empties of the spec's decision (10_state.md section 3; zeros D14, D2, log entry 1).
`State.reset` is this for the default parameters (D18, D20; log entries 3, 4). -/
def Obligations.ResetValues : Prop :=
  (∀ p : Parameters,
    (∀ (a : Nat) (h : a < 80), (State.resetWith p).byteAt a = p.font[a]) ∧
    (∀ a, 80 ≤ a → (State.resetWith p).byteAt a = 0) ∧ (State.resetWith p).pc.toNat = 512 ∧ (State.resetWith p).sp = 0 ∧
    (∀ x, (State.resetWith p).getV x = 0) ∧ (State.resetWith p).i = 0 ∧ (State.resetWith p).delay = 0 ∧
    (State.resetWith p).sound = 0 ∧ (State.resetWith p).kbd.entries = [] ∧
    (∀ k : Fin 16, (State.resetWith p).kbd.q[k.val] = 0) ∧ (State.resetWith p).kbd.qHead = 0 ∧
    (State.resetWith p).kbd.qCount = 0 ∧
    (∀ key, (State.resetWith p).kbd.latched key = false) ∧ (∀ key : Key, (State.resetWith p).kbd.keyPrev[key.val] = false) ∧
    (State.resetWith p).drawRequested = false ∧ (State.resetWith p).haltRequested = false ∧
    (State.resetWith p).fault = .noFault ∧ (State.resetWith p).faultInfo = { pc := 0, op := 0, addr := 0 } ∧
    (∀ k : Fin 16, (State.resetWith p).stack[k.val] = 0) ∧ (∀ q : Pixel, Display.lit (State.resetWith p).display q = false) ∧
    (State.resetWith p).params = p ∧ (State.resetWith p).waiting = false ∧ (State.resetWith p).events = []) ∧
  State.reset = State.resetWith defaultParameters

/-- No transition changes the machine's parameters, `init` among them ("fixed before it", 70_reset_and_hazards.md section 1), and every
transition keeps the frame buffer in its canonical form: reading order, every lit pixel on the screen (45_sprite_memory.md section 2; the
form is the model's own, log entry 5, the parameters in the state log entry 35). -/
def Obligations.StepKeepsParametersAndScreen : Prop :=
  ∀ s t : State, step s = .next t →
    t.params = s.params ∧ (Display.wf s.params s.display = true → Display.wf t.params t.display = true)
end

