-- ==== Sys2Proof/Tests/Slice0.lean ====
section
/-!
SUPPORT. The model's own tests. Expected values are those of spec/95_test_vectors.md (its S, P and table rows) or are worked out by hand
from the rule named; each runs one step or one operation on a small state. The theorems named witness_… show that the hypotheses of a
statement of Certificates/Slice0/Obligations.lean are met.
-/

namespace Sys2Proof.Machine.Tests

/-! ### Well-formedness: an ill-formed term for each check -/

/-- R96: one undefined word per group. -/
theorem test_wellFormedWord_refuses :
    wellFormedWord 0x0000 = false ∧ wellFormedWord 0x01E0 = false ∧ wellFormedWord 0x5121 = false ∧
    wellFormedWord 0x8AB8 = false ∧ wellFormedWord 0x912F = false ∧ wellFormedWord 0xE29F = false ∧
    wellFormedWord 0xF11E = false := by decide

theorem test_wellFormedWord_accepts : wellFormedWord 0x00E0 = true ∧ wellFormedWord 0xF265 = true := by decide

/-- S3: 3584 bytes fit, 3585 do not. -/
theorem test_wellFormedImage_refuses : wellFormedImage (List.replicate 3585 0) = false := by
  unfold wellFormedImage; rw [List.length_replicate]; decide

theorem test_wellFormedImage_accepts : wellFormedImage (List.replicate 3584 0) = true := by
  unfold wellFormedImage; rw [List.length_replicate]; decide

/-! ### Decoding: for every constructor a word written out from the pattern column of rule R95 (vectors of 95 section 2.1) -/

theorem test_decode_cls : decode 0x00E0 = .ok .cls := by decide
theorem test_decode_ret : decode 0x00EE = .ok .ret := by decide
theorem test_decode_jp : decode 0x1ABC = .ok (.jp 0xABC) := by decide
theorem test_decode_call : decode 0x2200 = .ok (.call 0x200) := by decide
theorem test_decode_seImm : decode 0x3A7F = .ok (.seImm 0xA 0x7F) := by decide
theorem test_decode_sneImm : decode 0x4F00 = .ok (.sneImm 0xF 0) := by decide
theorem test_decode_seReg : decode 0x5120 = .ok (.seReg 1 2) := by decide
theorem test_decode_ldImm : decode 0x6005 = .ok (.ldImm 0 5) := by decide
theorem test_decode_addImm : decode 0x7003 = .ok (.addImm 0 3) := by decide
theorem test_decode_ldReg : decode 0x8AB0 = .ok (.ldReg 0xA 0xB) := by decide
theorem test_decode_orReg : decode 0x8AB1 = .ok (.orReg 0xA 0xB) := by decide
theorem test_decode_andReg : decode 0x8AB2 = .ok (.andReg 0xA 0xB) := by decide
theorem test_decode_xorReg : decode 0x8AB3 = .ok (.xorReg 0xA 0xB) := by decide
theorem test_decode_addReg : decode 0x8AB4 = .ok (.addReg 0xA 0xB) := by decide
theorem test_decode_subReg : decode 0x8AB5 = .ok (.subReg 0xA 0xB) := by decide
theorem test_decode_shrReg : decode 0x8AB6 = .ok (.shrReg 0xA 0xB) := by decide
theorem test_decode_subnReg : decode 0x8AB7 = .ok (.subnReg 0xA 0xB) := by decide
theorem test_decode_shlReg : decode 0x8ABE = .ok (.shlReg 0xA 0xB) := by decide
theorem test_decode_sneReg : decode 0x9120 = .ok (.sneReg 1 2) := by decide
theorem test_decode_ldI : decode 0xA123 = .ok (.ldI 0x123) := by decide
theorem test_decode_jpV0 : decode 0xB300 = .ok (.jpV0 0x300) := by decide
theorem test_decode_rnd : decode 0xC30F = .ok (.rnd 3 0x0F) := by decide
theorem test_decode_drw : decode 0xD015 = .ok (.drw 0 1 5) := by decide
theorem test_decode_skp : decode 0xE29E = .ok (.skp 2) := by decide
theorem test_decode_sknp : decode 0xE2A1 = .ok (.sknp 2) := by decide
theorem test_decode_ldVxDT : decode 0xF107 = .ok (.ldVxDT 1) := by decide
theorem test_decode_ldVxK : decode 0xF20A = .ok (.ldVxK 2) := by decide
theorem test_decode_ldDTVx : decode 0xF015 = .ok (.ldDTVx 0) := by decide
theorem test_decode_ldSTVx : decode 0xF218 = .ok (.ldSTVx 2) := by decide
theorem test_decode_ldF : decode 0xF329 = .ok (.ldF 3) := by decide
theorem test_decode_ldB : decode 0xF033 = .ok (.ldB 0) := by decide
theorem test_decode_storeRegs : decode 0xF255 = .ok (.storeRegs 2) := by decide
theorem test_decode_loadRegs : decode 0xF265 = .ok (.loadRegs 2) := by decide

/-- Undefined words by name, `0nnn` and `Fx1E` among them (R96, R97). -/
theorem test_decode_undefined :
    decode 0x0123 = .error .group0 ∧ decode 0x5121 = .error .group5 ∧ decode 0x8ABF = .error .group8 ∧
    decode 0x912F = .error .group9 ∧ decode 0xE2A0 = .error .groupE ∧ decode 0xF11E = .error .groupF := by decide

theorem test_decodeTableWord : decodeTableWord 16 0xD015 = some (.drw 0 1 5) ∧ decodeTableWord 16 0x8AB8 = none := by decide

theorem test_decodeBytes_truncated : decodeBytes [0x60] = .error .truncated := by decide

/-! ### One step per instruction -/

/-- The state after the `step` event that runs the word `w` placed at the `PC`, with the answers `input`. -/
def runWith (s : State) (w : Nat) (input : StepInput) : State :=
  match step { s.withFetchWord 16 w with events := [.step input] } with
  | .next t => t
  | _ => State.reset

/-- The same, with no key down. -/
def runWord (s : State) (w : Nat) : State := runWith s w StepInput.quiet

/-- The reset state with two registers set. -/
def withRegs (x : Reg) (a : Byte) (y : Reg) (b : Byte) : State := (State.reset.setV x a).setV y b

/-- R160. -/
theorem test_cls : (runWord { State.reset with display := [⟨3, 0⟩, ⟨3, 2⟩] } 0x00E0).display = Display.off ∧
    (runWord State.reset 0x00E0).drawRequested = true ∧ (runWord State.reset 0x00E0).pc = 0x202 := by decide

/-- R161: `SP = 1`, `stack[0] = 0x0206`. -/
theorem test_ret :
    (runWord { State.reset with sp := 1, stack := State.reset.stack.set 0 0x0206 } 0x00EE).pc = 0x206 ∧
    (runWord { State.reset with sp := 1, stack := State.reset.stack.set 0 0x0206 } 0x00EE).sp = 0 := by decide

/-- P5a. -/
theorem test_ret_underflow : (runWord State.reset 0x00EE).fault = .stackUnderflow ∧
    (runWord State.reset 0x00EE).faultInfo = { pc := 0x200, op := 0x00EE, addr := 0 } ∧
    (runWord State.reset 0x00EE).pc = 0x200 := by decide

/-- 95 section 2.3. -/
theorem test_jp : (runWord State.reset 0x1ABC).pc = 0xABC := by decide

/-- R163: `PC = 0x204`, `220A`. -/
theorem test_call : (runWord { State.reset with pc := 0x204 } 0x220A).stack[0] = 0x0206 ∧
    (runWord { State.reset with pc := 0x204 } 0x220A).sp = 1 ∧
    (runWord { State.reset with pc := 0x204 } 0x220A).pc = 0x20A := by decide

/-- 95 section 2.3: `2300` at `0x2F0`, `SP = 16`. -/
theorem test_call_overflow : (runWord { State.reset with pc := 0x2F0, sp := 16 } 0x2300).fault = .stackOverflow ∧
    (runWord { State.reset with pc := 0x2F0, sp := 16 } 0x2300).faultInfo = { pc := 0x2F0, op := 0x2300, addr := 0 } ∧
    (runWord { State.reset with pc := 0x2F0, sp := 16 } 0x2300).pc = 0x2F0 := by decide

/-- 95 section 2.3: the skips, taken and not. -/
theorem test_seImm : (runWord (withRegs 0 5 1 0) 0x3005).pc = 0x204 ∧ (runWord (withRegs 0 6 1 0) 0x3005).pc = 0x202 := by
  decide
theorem test_sneImm : (runWord (withRegs 0 5 1 0) 0x4005).pc = 0x202 ∧ (runWord (withRegs 0 6 1 0) 0x4005).pc = 0x204 := by
  decide
theorem test_seReg : (runWord (withRegs 0 7 1 7) 0x5010).pc = 0x204 ∧ (runWord (withRegs 0 7 1 8) 0x5010).pc = 0x202 := by
  decide
theorem test_sneReg : (runWord (withRegs 0 7 1 7) 0x9010).pc = 0x202 ∧ (runWord (withRegs 0 7 1 8) 0x9010).pc = 0x204 := by
  decide

/-- S6. -/
theorem test_ldImm : (runWord State.reset 0x6005).getV 0 = 5 ∧ (runWord State.reset 0x6005).pc = 0x202 := by decide

/-- 95 section 2.2: `7001` with `V[0] = FF` leaves VF alone. -/
theorem test_addImm : (runWord (withRegs 0 0xFF 15 0) 0x7001).getV 0 = 0 ∧ (runWord (withRegs 0 0xFF 15 0) 0x7001).getV 15 = 0 := by
  decide

/-- 95 section 2.2, the ALU table. -/
theorem test_ldReg : (runWord (withRegs 0 0x12 1 0x34) 0x8010).getV 0 = 0x34 := by decide
theorem test_orReg : (runWord (withRegs 0 0xF0 1 0x0F) 0x8011).getV 0 = 0xFF := by decide
theorem test_andReg : (runWord (withRegs 0 0xF0 1 0x3C) 0x8012).getV 0 = 0x30 := by decide
theorem test_xorReg : (runWord (withRegs 0 0xF0 1 0x3C) 0x8013).getV 0 = 0xCC := by decide
theorem test_addReg : (runWord (withRegs 0 0xC8 1 0x64) 0x8014).getV 0 = 0x2C ∧
    (runWord (withRegs 0 0xC8 1 0x64) 0x8014).getV 15 = 1 := by decide
theorem test_addReg_vf : (runWord (withRegs 15 0xFF 1 3) 0x8F14).getV 15 = 1 := by decide
theorem test_subReg : (runWord (withRegs 0 0x2C 1 0x64) 0x8015).getV 0 = 0xC8 ∧
    (runWord (withRegs 0 0x2C 1 0x64) 0x8015).getV 15 = 0 := by decide
theorem test_subReg_equal : (runWord (withRegs 0 5 1 5) 0x8015).getV 0 = 0 ∧ (runWord (withRegs 0 5 1 5) 0x8015).getV 15 = 1 := by
  decide
/-- S10. -/
theorem test_shrReg : (runWord (withRegs 0 0xFF 1 5) 0x8016).getV 0 = 2 ∧ (runWord (withRegs 0 0xFF 1 5) 0x8016).getV 15 = 1 ∧
    (runWord (withRegs 0 0xFF 1 5) 0x8016).getV 1 = 5 := by decide
theorem test_subnReg : (runWord (withRegs 0 1 1 0) 0x8017).getV 0 = 0xFF ∧ (runWord (withRegs 0 1 1 0) 0x8017).getV 15 = 0 := by
  decide
theorem test_shlReg : (runWord (withRegs 0 0 1 0x7F) 0x801E).getV 0 = 0xFE ∧ (runWord (withRegs 0 0 1 0x7F) 0x801E).getV 15 = 0 := by
  decide
theorem test_shlReg_vf : (runWord (withRegs 1 0x81 0 0) 0x8F1E).getV 15 = 1 := by decide

/-- S7. -/
theorem test_ldI : (runWord (withRegs 0 0xA 1 0) 0xA123).i = 0x123 ∧ (runWord (withRegs 0 0xA 1 0) 0xA123).pc = 0x202 := by decide

/-- 95 section 2.3: `BFFF` with `V[0] = FF`. -/
theorem test_jpV0 : (runWord (withRegs 0 0xFF 1 0) 0xBFFF).pc = 0x10FE := by decide

/-- 95 section 2.6: random byte `A7`, `C30F`. -/
theorem test_rnd : (runWith State.reset 0xC30F { StepInput.quiet with randomByte := 0xA7 }).getV 3 = 7 := by decide

/-- 95 section 2.7: `D015` at `I = 0`: rows 0 and 1 of glyph 0 are columns 0 to 3, and 0 and 3; VF = 0. -/
theorem test_drw : (runWord State.reset 0xD015).display.take 6 = [⟨0, 0⟩, ⟨0, 1⟩, ⟨0, 2⟩, ⟨0, 3⟩, ⟨1, 0⟩, ⟨1, 3⟩] ∧
    (runWord State.reset 0xD015).display.length = 14 ∧ (runWord State.reset 0xD015).getV 15 = 0 ∧
    (runWord State.reset 0xD015).drawRequested = true := by decide

/-- 95 section 2.7: `DFF1` with VF = 5 and pixel (5, 5) lit collides, both coordinates read from the old VF. -/
theorem test_drw_collides :
    (runWord { (State.reset.setV 15 5) with i := 0x33, display := [⟨5, 5⟩] } 0xDFF1).getV 15 = 1 := by decide

/-- The machine whose screen is 4 pixels wide. -/
def narrow : State := State.resetWith { defaultParameters with screenW := ⟨4, by decide⟩ }

/-- R212: when `SCREEN_W < 8` a sprite wraps onto itself, "the second toggle sees the pixel the first one lit". The byte 88 toggles
column 0 twice. -/
theorem test_drw_wraps_onto_itself :
    (runWord { narrow with i := 0x300, memory := [(0x300, 0x88)] } 0xD011).display = [] ∧
    (runWord { narrow with i := 0x300, memory := [(0x300, 0x88)] } 0xD011).getV 15 = 1 ∧
    (runWord { narrow with i := 0x300, memory := [(0x300, 0x08)] } 0xD011).display = [⟨0, 0⟩] := by decide

/-- 95 section 2.5: `E29E` with `V[2] = 17` indexes latch 7. -/
theorem test_skp :
    (runWord { (State.reset.setV 2 0x17) with kbd := State.reset.kbd.setLatch 7 true } 0xE29E).pc = 0x204 ∧
    (runWord { (State.reset.setV 2 0x17) with kbd := State.reset.kbd.setLatch 7 true } 0xE29E).kbd.latched 7 = false ∧
    (runWord (State.reset.setV 2 7) 0xE29E).pc = 0x202 := by decide

/-- S11. -/
theorem test_sknp :
    (runWord { (State.reset.setV 2 7) with kbd := State.reset.kbd.setLatch 7 true } 0xE2A1).pc = 0x202 ∧
    (runWord { (State.reset.setV 2 7) with kbd := State.reset.kbd.setLatch 7 true } 0xE2A1).kbd.latched 7 = false ∧
    (runWord (State.reset.setV 2 7) 0xE2A1).pc = 0x204 := by decide

/-- 95 section 2.4. -/
theorem test_ldVxDT : (runWord { State.reset with delay := 2 } 0xF107).getV 1 = 2 := by decide
theorem test_ldDTVx : (runWord (State.reset.setV 0 3) 0xF015).delay = 3 := by decide
theorem test_ldSTVx : (runWord (State.reset.setV 2 0x10) 0xF218).sound = 16 := by decide

/-- P4, event 14: key 7 goes down in the poll of the step that runs `F20A`. -/
theorem test_ldVxK_queued :
    (runWith State.reset 0xF20A { StepInput.quiet with keysDown := StepInput.quiet.keysDown.set 7 true }).getV 2 = 7 ∧
    (runWith State.reset 0xF20A { StepInput.quiet with keysDown := StepInput.quiet.keysDown.set 7 true }).kbd.latched 7 = true ∧
    (runWith State.reset 0xF20A { StepInput.quiet with keysDown := StepInput.quiet.keysDown.set 7 true }).kbd.entries = [] := by
  decide

/-- 95 section 2.5: the blocking branch answered with key C, with `quit`, and not answered yet. -/
theorem test_ldVxK_blocking :
    (runWith State.reset 0xF20A { StepInput.quiet with keyAnswer := some (.key 0xC) }).getV 2 = 0xC ∧
    (runWith State.reset 0xF20A { StepInput.quiet with keyAnswer := some .quit }).haltRequested = true ∧
    (runWith State.reset 0xF20A { StepInput.quiet with keyAnswer := some .quit }).pc = 0x200 ∧
    (runWord State.reset 0xF20A).waiting = true ∧ (runWord State.reset 0xF20A).pc = 0x200 := by decide

/-- 95 section 2.6. -/
theorem test_ldF : (runWord (State.reset.setV 3 0x0B) 0xF329).i = 0x37 ∧ (runWord (State.reset.setV 3 0x1A) 0xF329).i = 0x32 := by
  decide

/-- S4, and `I = 0x0FFE` in 95 section 2.6. -/
theorem test_ldB : (runWord { (State.reset.setV 0 0xFF) with i := 0x300 } 0xF033).byteAt 0x300 = 2 ∧
    (runWord { (State.reset.setV 0 0xFF) with i := 0x300 } 0xF033).byteAt 0x301 = 5 ∧
    (runWord { (State.reset.setV 0 0xFF) with i := 0x300 } 0xF033).byteAt 0x302 = 5 := by decide
theorem test_ldB_fault : (runWord { State.reset with i := 0xFFE } 0xF033).fault = .dataAddressFault ∧
    (runWord { State.reset with i := 0xFFE } 0xF033).faultInfo = { pc := 0x200, op := 0xF033, addr := 4096 } := by decide

/-- 95 section 2.6: `F055` and `F155` at the top of memory. -/
theorem test_storeRegs : (runWord { (State.reset.setV 0 7) with i := 0xFFF } 0xF055).byteAt 0xFFF = 7 ∧
    (runWord { (State.reset.setV 0 7) with i := 0xFFF } 0xF055).i = 0xFFF := by decide
theorem test_storeRegs_fault : (runWord { (State.reset.setV 0 7) with i := 0xFFF } 0xF155).fault = .dataAddressFault ∧
    (runWord { (State.reset.setV 0 7) with i := 0xFFF } 0xF155).byteAt 0xFFF = 0 := by decide

/-- 95 section 2.6: `F465` at the font. -/
theorem test_loadRegs : (runWord State.reset 0xF465).getV 0 = 0xF0 ∧ (runWord State.reset 0xF465).getV 1 = 0x90 ∧
    (runWord State.reset 0xF465).getV 4 = 0xF0 ∧ (runWord State.reset 0xF465).getV 5 = 0 := by decide

/-! ### The cycle and the events -/

/-- P5c, step 1. -/
theorem test_decodeError : stepResult { State.reset.placeWord 0x8008 with events := [.step StepInput.quiet] } =
    some (.decodeError 0x200 0x8008) ∧ (runWord State.reset 0x8008).pc = 0x202 := by decide

/-- 95 section 2.8: fetch at 4095. -/
theorem test_fetchFault : stepResult { State.reset with pc := 0xFFF, events := [.step StepInput.quiet] } =
    some (.fatal .fetchAddressFault { pc := 0xFFF, op := 0, addr := 0x1000 }) := by decide

/-- 95 section 2.4: ticks stop at 0, and are not gated. -/
theorem test_tick : ({ State.reset with sound := 5 } : State).tickTimers.sound = 4 ∧
    ({ State.reset with sound := 5 } : State).tickTimers.delay = 0 := by decide

/-- 95 section 2.5, polls 4 and 5: key 7 known and queued, then keys 2 and 7 down after both were up. -/
theorem test_poll :
    (((Keyboard.reset.enqueue 7).poll .edge ((StepInput.quiet.keysDown.set 7 true).set 2 true)).entries = [7, 2, 7]) := by decide

/-- S3, in the small. -/
theorem test_load : (State.reset.load [0x60, 0x05]).byteAt 512 = 0x60 ∧ (State.reset.load [0x60, 0x05]).byteAt 513 = 5 ∧
    (State.reset.load [0x60, 0x05]).pc = 0x200 := by decide

/-- The reset contents written back leave no cell (log entry 2). -/
theorem test_memory_canonical : Memory.write defaultFont (Memory.write defaultFont [] 0x300 7) 0x300 0 = [] ∧
    Memory.write defaultFont [] 0 0xF0 = [] ∧ Memory.wf defaultFont [(5, 1), (5, 2)] = false := by decide

/-- R62: another font is another machine's memory. -/
theorem test_font_is_an_argument :
    (State.resetWith { defaultParameters with font := defaultFont.set 7 0xAB }).byteAt 7 = 0xAB ∧ State.reset.byteAt 7 = 0x20 := by
  decide

/-! ### Witnesses: the hypotheses of each statement are met -/

/-- A state whose running `step` meets the word `w`. -/
def atWord (w : Word) : State := State.reset.placeWord w

/-- A step blocked in `F20A`. -/
def blocked (rest : List Event) : State := { atWord 0xF20A with waiting := true, events := rest }

/-- The state with both stack ends reachable. -/
def withSp (n : Fin 17) : State := { State.reset with sp := n }

/-- The meaning answers a next state on which `p` holds. -/
def nextHas (o : Host.Outcome State Fault Refusal) (p : State → Bool) : Bool :=
  match o with
  | .next t => p t
  | _ => false

theorem witness_EncodeOfDecode : decode 0xF265 = .ok (.loadRegs 2) := by decide

theorem witness_StepRunsDecodedInstruction :
    (atWord 0x6005).nextHostEvent? = none ∧ (atWord 0x6005).gated = false ∧ (atWord 0x6005).pc.toNat ≤ 4094 ∧
    decodeBytes [(atWord 0x6005).byteAt 512, (atWord 0x6005).byteAt 513] = .ok (.ldImm 0 5, []) ∧
    (atWord 0x6005).waiting = false := by decide

theorem witness_StepRunsDecodedInstruction_blocked :
    (blocked []).nextHostEvent? = none ∧ (blocked []).gated = false ∧ (blocked []).pc.toNat ≤ 4094 ∧
    decodeBytes [(blocked []).byteAt 512, (blocked []).byteAt 513] = .ok (.ldVxK 2, []) ∧ (blocked []).waiting = true := by decide

/-- One step per result: `Ok`, `Fatal`, `Halted`, and none while it is blocked. -/
theorem witness_StepRunsDecodedInstruction_results :
    stepResult { atWord 0x6005 with events := [.step StepInput.quiet] } = some .ok ∧
    stepResult { atWord 0x00EE with events := [.step StepInput.quiet] } =
      some (.fatal .stackUnderflow { pc := 0x200, op := 0x00EE, addr := 0 }) ∧
    stepResult { atWord 0xF20A with events := [.step { StepInput.quiet with keyAnswer := some .quit }] } = some .halted ∧
    stepResult { atWord 0xF20A with events := [.step StepInput.quiet] } = none := by decide

/-- At the last address a word can be fetched from. -/
theorem witness_StepRunsDecodedInstruction_top :
    let s : State := { State.reset with pc := 4094, memory := [(4094, 0x60), (4095, 0x05)] }
    s.nextHostEvent? = none ∧ s.gated = false ∧ s.pc.toNat ≤ 4094 ∧
    decodeBytes [s.byteAt 4094, s.byteAt 4095] = .ok (.ldImm 0 5, []) := by decide

/-- One state per clause. -/
theorem witness_StepDrawsFreshInputs :
    State.reset.nextHostEvent? = none ∧ State.reset.gated = false ∧ State.reset.waiting = false ∧ State.reset.events = [] ∧
    ({ State.reset with events := [.step StepInput.quiet] } : State).nextHostEvent? = none ∧
    ({ State.reset with events := [.answer none] } : State).nextHostEvent? = none := by decide

theorem witness_StepDrawsFreshInputs_blocked :
    (blocked [.answer (some .quit)]).nextHostEvent? = none ∧ (blocked [.answer (some .quit)]).gated = false ∧
    (blocked [.answer (some .quit)]).waiting = true ∧
    (blocked [.answer (some .quit)]).events = .answer (some .quit) :: [] ∧
    (blocked []).nextHostEvent? = none ∧ (blocked []).gated = false ∧ (blocked []).waiting = true ∧ (blocked []).events = [] := by
  decide

theorem witness_GatedStepIsIdle :
    ({ State.reset with fault := .stackUnderflow } : State).nextHostEvent? = none ∧
    ({ State.reset with fault := .stackUnderflow } : State).fault ≠ .noFault ∧
    ({ State.reset with haltRequested := true } : State).nextHostEvent? = none ∧
    ({ State.reset with haltRequested := true } : State).haltRequested = true := by decide

theorem witness_GatedRunNeverChanges :
    ({ State.reset with fault := .fetchAddressFault } : State).events = [] ∧
    ({ State.reset with fault := .fetchAddressFault } : State).fault ≠ .noFault := by decide

theorem witness_OnlyInitLeavesTheGate :
    ({ State.reset with haltRequested := true } : State).gated = true ∧
    nextHas (step { State.reset with haltRequested := true }) (fun _ => true) = true ∧
    nextHas (step { State.reset with haltRequested := true, events := [.host .init] }) (fun t => !t.haltRequested) = true := by
  decide

theorem witness_FetchPastMemoryFaults :
    ({ State.reset with pc := 4095 } : State).nextHostEvent? = none ∧ ({ State.reset with pc := 4095 } : State).gated = false ∧
    ({ State.reset with pc := 4095 } : State).pc.toNat > 4094 ∧ ({ State.reset with pc := 0xFFFF } : State).pc.toNat > 4094 := by
  decide

theorem witness_UndefinedWordIsReported :
    State.reset.nextHostEvent? = none ∧ State.reset.gated = false ∧ State.reset.pc.toNat ≤ 4094 ∧
    decode (wordOfBytes (State.reset.byteAt 512) (State.reset.byteAt 513)) = .error .group0 := by decide

theorem witness_StoredWordIsFetched :
    ({ State.reset with pc := 4094 } : State).MemoryWf ∧ ({ State.reset with pc := 4094 } : State).pc.toNat ≤ 4094 := by
  decide

theorem witness_PlacedInstructionRunsNext :
    ({ State.reset with pc := 0xFFFF, fault := .stackOverflow } : State).MemoryWf ∧
    decodeTableWord 16 0x6005 = some (.ldImm 0 5) := by decide

theorem witness_AluTable : (8#4).toNat ∈ [8, 9, 10, 11, 12, 13, 15] ∧ (15#4).toNat ∈ [8, 9, 10, 11, 12, 13, 15] := by decide

/-- For AluTable, AddSetsCarry, SubtractSetsNoBorrow and ShiftsReadVy. -/
theorem witness_destination_not_vf : (14 : Reg) ≠ vf := by decide

theorem witness_Jumps : nextHas (exec (.jpV0 0xFFF) (withRegs 0 0xFF 1 0)) (fun t => decide (t.pc.toNat > 4094)) = true := by decide

theorem witness_SkipOnImmediate : (withRegs 0 5 1 0).getV 0 = 5 ∧ (withRegs 0 5 1 0).getV 0 ≠ 6 := by decide

theorem witness_SkipOnRegisters : (withRegs 0 7 1 7).getV 0 = (withRegs 0 7 1 7).getV 1 ∧
    (withRegs 0 7 1 8).getV 0 ≠ (withRegs 0 7 1 8).getV 1 ∧ (1 : BitVec 4) ≠ 0 ∧ (15 : BitVec 4) ≠ 0 := by decide

theorem witness_CallPushesReturnPops : (withSp 0).sp.val < 16 ∧ (withSp 15).sp.val < 16 ∧ 0 < (withSp 1).sp.val ∧
    0 < (withSp 16).sp.val ∧ (3 : Fin 16).val ≠ (withSp 0).sp.val := by decide

theorem witness_StackFaults : (withSp 16).sp = 16 ∧ (withSp 0).sp = 0 := by decide

theorem witness_StackDiscipline : (withSp 0).sp.val + (List.replicate 16 (0x200 : BitVec 12)).length ≤ 16 ∧
    (withSp 0).sp.val + (List.replicate 16 (0x200 : BitVec 12)).length = 16 ∧
    (withSp 16).sp.val + ([] : List (BitVec 12)).length ≤ 16 ∧
    (withSp 3).sp.val + [(0x300 : BitVec 12)].length ≤ 16 ∧ (2 : Fin 16).val < (withSp 3).sp.val := by decide

/-- One state per clause. -/
theorem witness_PendingEventsHappenNext :
    State.reset.waiting = false ∧
    ({ State.reset with events := [.host .tickTimers] } : State).events = [.host .tickTimers] ∧
    ({ State.reset with events := [.host (.load [1])] } : State).events = [.host (.load [1])] ∧
    ({ State.reset with events := [.host .ackDraw] } : State).events = [.host .ackDraw] ∧
    ({ State.reset with events := [.host .init] } : State).events = [.host .init] ∧
    ({ State.reset with events := [.host .deinit] } : State).events = [.host .deinit] := by decide

theorem witness_FifoIsBoundedQueue :
    ({ Keyboard.reset with qCount := 15 } : Keyboard).qCount.val < 16 ∧
    ({ Keyboard.reset with qCount := 16 } : Keyboard).qCount.val = 16 ∧
    0 < ({ Keyboard.reset with qCount := 1 } : Keyboard).qCount.val := by decide

theorem witness_KeyWaitTakesOldestEvent :
    ({ State.reset with kbd := (Keyboard.reset.enqueue 7).enqueue 2 } : State).kbd.entries = [7, 2] := by decide

theorem witness_KeyWaitBlocks : State.reset.kbd.entries = [] ∧
    ({ State.reset with input := { StepInput.quiet with keyAnswer := some (.key 15) } } : State).input.keyAnswer =
      some (.key 15) ∧
    ({ State.reset with input := { StepInput.quiet with keyAnswer := some .quit } } : State).input.keyAnswer = some .quit ∧
    State.reset.input.keyAnswer = none := by decide

/-- The blocked state is one, for an answer that comes and for one that does not. -/
theorem witness_blocked_waits (rest : List Event) : (blocked rest).WaitsInKeyRead :=
  fun _ => ⟨rfl, rfl, 2, 0xF20A, by show (atWord 0xF20A).fetch? = some 0xF20A; decide, by decide⟩

theorem witness_BlockedStepKeepsState :
    (blocked []).waiting = true ∧
    nextHas (step (blocked [.answer (some (.key 3))])) (fun t => !t.waiting && t.getV 2 == 3) = true ∧
    nextHas (step (blocked [.answer none])) (fun t => t.waiting) = true := by decide

theorem witness_OnlyConsumptionClearsALatch :
    nextHas (exec (.skp 2) { (State.reset.setV 2 7) with kbd := State.reset.kbd.setLatch 7 true })
      (fun t => t.kbd.latched 7 != (State.reset.kbd.setLatch 7 true).latched 7) = true := by decide

theorem witness_RandomIsMasked : (0x0F : Byte).getLsbD 7 = false := by decide

theorem witness_DrawInvertsTheSprite :
    ((0 : BitVec 4) = 0) ∧ ({ State.reset with i := 0xFFC } : State).i.toNat + (4 : BitVec 4).toNat ≤ 4096 := by decide

/-- Pixel (0, 0) is under glyph 0 drawn at (0, 0), on a screen large enough; it may be lit or not. -/
theorem witness_DrawInvertsTheSprite_inside : State.reset.InSprite 0 1 5 ⟨0, 0⟩ ∧ State.reset.spriteHits 0 1 5 ⟨0, 0⟩ = 1 ∧
    8 ≤ (State.reset.params.screenW : Nat) ∧ (5 : BitVec 4).toNat ≤ (State.reset.params.screenH : Nat) :=
  ⟨⟨0, 0, by decide, by decide, by decide⟩, by decide, by decide, by decide⟩

theorem witness_DrawInvertsTheSprite_lit :
    Display.lit ({ State.reset with display := [⟨0, 0⟩] } : State).display ⟨0, 0⟩ = true ∧
    ({ State.reset with display := [⟨0, 0⟩] } : State).spriteHits 0 1 5 ⟨0, 0⟩ = 1 ∧
    Display.lit State.reset.display ⟨0, 0⟩ = false := by decide

/-- On a narrow screen a pixel is toggled twice. -/
theorem witness_DrawInvertsTheSprite_twice :
    ({ narrow with i := 0x300, memory := [(0x300, 0x88)] } : State).spriteHits 0 1 1 ⟨0, 0⟩ = 2 := by decide

/-- With no row nothing is under the sprite: the hypotheses of the other two clauses. -/
theorem witness_DrawInvertsTheSprite_outside (p : Pixel) :
    ¬ State.reset.InSprite 0 1 0 p ∧ State.reset.spriteHits 0 1 0 p = 0 :=
  ⟨fun ⟨_, _, h, _⟩ => absurd h (Nat.not_lt_zero _), rfl⟩

theorem witness_BcdDigitsStored : ({ State.reset with i := 4093 } : State).MemoryWf ∧
    ({ State.reset with i := 4093 } : State).i.toNat + 2 ≤ 4095 := by decide

/-- For RegistersStored, RegistersLoaded and StoreThenLoadRestoresRegisters, at the top of memory. -/
theorem witness_RegistersStored : ({ State.reset with i := 4080 } : State).MemoryWf ∧
    ({ State.reset with i := 4080 } : State).i.toNat + (15 : Reg).val ≤ 4095 ∧ (15 : Reg) ≤ 15 ∧ (3 : Reg) < 4 := by decide

theorem witness_DataPastMemoryFaults :
    (5 : BitVec 4) ≠ 0 ∧ ({ State.reset with i := 0xFFC } : State).i.toNat + ((5 : BitVec 4).toNat - 1) > 4095 ∧
    ({ State.reset with i := 0xFFE } : State).i.toNat + 2 > 4095 ∧
    ({ State.reset with i := 0xFF1 } : State).i.toNat + (15 : Reg).val > 4095 := by decide

theorem witness_LoadPlacesTheImage : State.reset.MemoryWf ∧
    (List.replicate 3584 (1 : Byte)).length ≤ 3584 ∧ 3583 < (List.replicate 3584 (1 : Byte)).length ∧
    (List.replicate 3585 (1 : Byte)).length > 3584 := by
  refine ⟨by decide, ?_, ?_, ?_⟩ <;> rw [List.length_replicate] <;> decide

/-- For FatalFaultsArePrecise and EachInstructionHasAtMostOneFault, one instruction per fault. -/
theorem witness_FatalFaultsArePrecise : (withSp 16).fault = .noFault ∧
    nextHas (exec (.call 0x300) (withSp 16)) (fun t => decide (t.fault ≠ .noFault)) = true ∧
    nextHas (exec .ret (withSp 0)) (fun t => decide (t.fault ≠ .noFault)) = true ∧
    nextHas (exec (.ldB 0) { State.reset with i := 4094 }) (fun t => decide (t.fault ≠ .noFault)) = true := by decide

theorem witness_OnlyStoresChangeMemory :
    nextHas (exec (.ldB 0) { (State.reset.setV 0 0xFF) with i := 0x300 }) (fun t => decide (t.memory ≠ State.reset.memory)) = true := by
  decide

/-- One instruction per clause of WhoWritesWhat. -/
theorem witness_WhoWritesWhat :
    nextHas (exec (.call 0x300) State.reset) (fun t => decide (t.stack ≠ State.reset.stack ∧ t.sp ≠ State.reset.sp)) = true ∧
    nextHas (exec (.ldI 5) State.reset) (fun t => decide (t.i ≠ State.reset.i)) = true ∧
    nextHas (exec (.ldDTVx 0) (State.reset.setV 0 1)) (fun t => decide (t.delay ≠ State.reset.delay)) = true ∧
    nextHas (exec (.ldSTVx 0) (State.reset.setV 0 1)) (fun t => decide (t.sound ≠ State.reset.sound)) = true ∧
    nextHas (exec (.drw 0 0 1) State.reset) (fun t => decide (t.display ≠ State.reset.display ∧ t.drawRequested ≠ State.reset.drawRequested)) =
      true ∧
    nextHas (exec (.ldVxK 0) { State.reset with input := { StepInput.quiet with keyAnswer := some .quit } })
      (fun t => decide (t.haltRequested ≠ State.reset.haltRequested)) = true := by decide

theorem witness_WhoWritesVF : nextHas (exec (.addReg 0 1) (withRegs 0 0xFF 1 1))
    (fun t => decide (t.getV vf ≠ (withRegs 0 0xFF 1 1).getV vf)) = true := by decide

/-- For StepKeepsMemoryCanonical. -/
theorem witness_StepKeepsMemoryCanonical : (atWord 0x6005).MemoryWf ∧
    nextHas (step (atWord 0x6005)) (fun _ => true) = true := by decide

/-- For StepKeepsBounds: a state with a live stack entry. -/
theorem witness_StepKeepsBounds :
    ({ atWord 0x00EE with sp := 1, stack := State.reset.stack.set 0 4096, i := 0xFFF } : State).InBounds ∧
    nextHas (step { atWord 0x00EE with sp := 1, stack := State.reset.stack.set 0 4096, i := 0xFFF })
      (fun t => decide (t.pc = 4096)) = true := by
  refine ⟨⟨by decide, by decide, ?_⟩, by decide⟩
  decide

/-- For StepKeepsParametersAndScreen: a drawing step of the narrow machine, a pixel being lit. -/
theorem witness_StepKeepsParametersAndScreen :
    Display.wf narrow.params [⟨0, 3⟩] = true ∧ Display.wf narrow.params [⟨0, 4⟩] = false ∧
    nextHas (step { narrow.placeWord 0xD015 with display := [⟨0, 3⟩] }) (fun t => decide (t.params = narrow.params)) = true := by
  decide

/-- For StepKeepsWaitState: the blocked state meets the invariant and steps. -/
theorem witness_StepKeepsWaitState : (blocked [.answer none]).WaitsInKeyRead ∧
    nextHas (step (blocked [.answer none])) (fun t => t.waiting) = true :=
  ⟨witness_blocked_waits _, by decide⟩

end Sys2Proof.Machine.Tests
end

section
/-!
PROOFS. The arithmetic family (spec/41_arithmetic.md rules R140 to R146): the ALU's results in bit-vector terms, the decoder on group 8,
and what a register instruction without a flag does.
-/

namespace Sys2Proof.Machine

/-! ### The ALU's results in bit-vector terms (R140) -/

/-- The sum narrowed at the end is the 8-bit sum (R5, R140). -/
theorem trunc8_toNat_add (a b : Byte) : trunc8 (a.toNat + b.toNat) = a + b := by
  apply BitVec.eq_of_toNat_eq
  simp

/-- The difference that never goes below 0 is the 8-bit difference (R140). -/
theorem subMod_eq_sub (a b : Byte) : subMod a b = a - b := by
  have hb := b.isLt
  apply BitVec.eq_of_toNat_eq
  simp only [subMod, BitVec.toNat_ofNat, BitVec.toNat_sub]
  omega

/-- Half of a byte is its logical right shift by one (R140). -/
theorem trunc8_toNat_div_two (b : Byte) : trunc8 (b.toNat / 2) = b >>> 1 := by
  have hb := b.isLt
  apply BitVec.eq_of_toNat_eq
  simp only [BitVec.toNat_ofNat, BitVec.toNat_ushiftRight, Nat.shiftRight_eq_div_pow]
  omega

/-- Twice a byte is its left shift by one (R140). -/
theorem trunc8_two_mul_toNat (b : Byte) : trunc8 (2 * b.toNat) = b <<< 1 := by
  apply BitVec.eq_of_toNat_eq
  simp only [BitVec.toNat_ofNat, BitVec.toNat_shiftLeft, Nat.shiftLeft_eq]
  omega

theorem alu_add (a b : Byte) : alu .add a b = (a + b, some (decide (a.toNat + b.toNat > 255))) := by
  simp only [alu, trunc8_toNat_add]

theorem alu_sub (a b : Byte) : alu .sub a b = (a - b, some (decide (b ≤ a))) := by
  simp only [alu, subMod_eq_sub, BitVec.le_def, ge_iff_le]

theorem alu_shr (a b : Byte) : alu .shr a b = (b >>> 1, some b[0]) := by
  simp only [alu, trunc8_toNat_div_two, BitVec.getLsbD_eq_getElem (show 0 < 8 by decide)]

theorem alu_subn (a b : Byte) : alu .subn a b = (b - a, some (decide (a ≤ b))) := by
  simp only [alu, subMod_eq_sub, BitVec.le_def, ge_iff_le]

theorem alu_shl (a b : Byte) : alu .shl a b = (b <<< 1, some b[7]) := by
  simp only [alu, trunc8_two_mul_toNat, BitVec.getLsbD_eq_getElem (show 7 < 8 by decide)]

/-! ### The decoder on group 8 (R94, R140, R152) -/

/-- A word `8xyN` is decoded by its low nibble, with its own `x` and `y`. -/
theorem decode_formatXYN_eight (x y : Reg) (n : BitVec 4) : decode (formatXYN 8 x y n) = decodeGroup8 x y n := by
  have hg : fieldG (formatXYN 8 x y n) = 8 := fieldG_formatXYN 8 x y n
  simp only [decode, hg, fieldX_formatXYN, fieldY_formatXYN, fieldN_formatXYN]

/-- The low nibbles that are no function code are decode errors of group 8 (R152). -/
theorem decodeGroup8_undefined (x y : Reg) {n : BitVec 4} (h : n.toNat ∈ [8, 9, 10, 11, 12, 13, 15]) :
    decodeGroup8 x y n = .error .group8 := by
  simp only [List.mem_cons, List.not_mem_nil, or_false] at h
  rcases h with h | h | h | h | h | h | h <;> simp only [decodeGroup8, h]

/-- Each function code selects its own instruction (R143 to R151). -/
theorem decodeGroup8_code (f : AluOp) (x y : Reg) : decodeGroup8 x y f.code = .ok (f.instr x y) := by
  cases f <;> rfl

/-! ### The meanings of the register instructions -/

/-- `6xkk` writes the constant and advances (R141). -/
theorem exec_ldImm (s : State) (x : Reg) (kk : Byte) : exec (.ldImm x kk) s = .next (s.setV x kk).advanceNext := rfl

/-- `7xkk` writes the result of the ALU's sum, not its flag, and advances (R140, R142). -/
theorem exec_addImm (s : State) (x : Reg) (kk : Byte) :
    exec (.addImm x kk) s = .next (s.setV x (alu .add (s.getV x) kk).1).advanceNext := rfl

/-- The instruction of a function code is the ALU's step with that code (R143 to R151). -/
theorem exec_instr (f : AluOp) (s : State) (x y : Reg) : exec (f.instr x y) s = .next (s.aluStep f x y) := by
  cases f <;> rfl

/-- What a register write and the normal advance do together: the register written, the other registers and the rest kept,
`PC + 2` (R21, R123). -/
theorem State.setV_advanceNext_spec (s : State) (x : Reg) (b : Byte) :
    (s.setV x b).advanceNext.getV x = b ∧ RegsKeptBut [x] s (s.setV x b).advanceNext ∧
      OnlyVAndPc s (s.setV x b).advanceNext ∧ (s.setV x b).advanceNext.pc = s.pc + 2 := by
  refine ⟨State.getV_setV_same s x b, fun r hr => ?_, rfl, rfl⟩
  exact State.getV_setV_ne s b (fun e => hr (List.mem_singleton.mpr e))

/-- An ALU step of a function without a flag is one register write and the advance (R140, R143 to R146). -/
theorem State.aluStep_of_flag_none {s : State} {f : AluOp} {x y : Reg} (h : (alu f (s.getV x) (s.getV y)).2 = none) :
    s.aluStep f x y = (s.setV x (alu f (s.getV x) (s.getV y)).1).advanceNext := by
  simp only [State.aluStep, h, State.setFlag]

/-- An `8xyN` instruction of a function without a flag leaves the ALU's result in `V[x]` and changes nothing else but the `PC`, VF
included unless `x` is F (R143 to R146). -/
theorem exec_instr_of_flag_none (f : AluOp) {s : State} {x y : Reg} (h : (alu f (s.getV x) (s.getV y)).2 = none) :
    ∃ t, exec (f.instr x y) s = .next t ∧ t.getV x = (alu f (s.getV x) (s.getV y)).1 ∧ RegsKeptBut [x] s t ∧
      OnlyVAndPc s t ∧ t.pc = s.pc + 2 :=
  ⟨_, (exec_instr f s x y).trans (congrArg _ (State.aluStep_of_flag_none h)), State.setV_advanceNext_spec s x _⟩

/-- For `x` other than F an ALU step leaves the result in `V[x]`: the later flag write cannot lose it (R153). -/
theorem State.getV_aluStep_dest (s : State) (f : AluOp) {x : Reg} (y : Reg) (hx : x ≠ vf) :
    (s.aluStep f x y).getV x = (alu f (s.getV x) (s.getV y)).1 := by
  rw [State.getV_aluStep]
  split <;> simp [hx]

/-- For `x` other than F an ALU step leaves the flag in VF if there is one, and VF as it was if there is none (R22, R140). -/
theorem State.getV_aluStep_vf (s : State) (f : AluOp) {x : Reg} (y : Reg) (hx : x ≠ vf) :
    (s.aluStep f x y).getV vf =
      (match (alu f (s.getV x) (s.getV y)).2 with | none => s.getV vf | some c => flagByte c) := by
  rw [State.getV_aluStep]
  cases (alu f (s.getV x) (s.getV y)).2 with
  | none => simp [hx.symm]
  | some c => simp

/-! ### The statements -/

/-- Settles O18: the ALU's nine results in bit-vector terms, the decoder on every low nibble of group 8, and the two writes of an ALU
step read back. -/
theorem aluTable : Obligations.AluTable := by
  unfold Obligations.AluTable
  refine ⟨fun a b => ⟨rfl, rfl, rfl, rfl, alu_add a b, alu_sub a b, alu_shr a b, alu_subn a b, alu_shl a b⟩, ?_, ?_, ?_, ?_⟩
  · intro x y n h
    exact (decode_formatXYN_eight x y n).trans (decodeGroup8_undefined x y h)
  · intro f x y
    exact (decode_formatXYN_eight x y f.code).trans (decodeGroup8_code f x y)
  · intro f s x y hx
    exact ⟨_, exec_instr f s x y, State.getV_aluStep_dest s f y hx, State.getV_aluStep_vf s f y hx⟩
  · intro s x kk
    obtain ⟨hresult, hkept, -, -⟩ := State.setV_advanceNext_spec s x (alu .add (s.getV x) kk).1
    exact ⟨_, exec_addImm s x kk, hresult, hkept⟩

/-- Settles O16: both immediate forms are one register write and the advance, and the sum is exact modulo 256. -/
theorem immediateForms : Obligations.ImmediateForms := by
  unfold Obligations.ImmediateForms
  intro s x kk
  refine ⟨⟨_, exec_ldImm s x kk, State.setV_advanceNext_spec s x kk⟩, ?_⟩
  obtain ⟨hresult, hframe⟩ := State.setV_advanceNext_spec s x (alu .add (s.getV x) kk).1
  refine ⟨_, exec_addImm s x kk, ?_, hframe⟩
  rw [hresult, alu_add, BitVec.toNat_add]

/-- Settles O17: the functions 0 to 3 of the ALU have no flag. -/
theorem copyAndLogic : Obligations.CopyAndLogic := by
  unfold Obligations.CopyAndLogic
  intro s x y
  exact ⟨exec_instr_of_flag_none .copy rfl, exec_instr_of_flag_none .bitOr rfl, exec_instr_of_flag_none .bitAnd rfl,
    exec_instr_of_flag_none .bitXor rfl⟩

end Sys2Proof.Machine
end

section
/-!
PROOFS. The control flow family (spec/42_control_flow.md rules R160 to R169): what the clear, the jumps and the skips leave, the jump
targets as numbers, and the decoder on groups 5 and 9.
-/

namespace Sys2Proof.Machine

/-! ### Jump targets as numbers (R5, R162, R168) -/

/-- A 12-bit address is its own value as a `PC`. -/
theorem zext16_nnn_toNat (nnn : BitVec 12) : (zext16 nnn).toNat = nnn.toNat :=
  BitVec.toNat_setWidth_of_le (by decide)

/-- The indexed target is the sum of a byte and a 12-bit address: it cannot wrap (R168). -/
theorem zext16_byte_add_nnn_toNat (b : Byte) (nnn : BitVec 12) :
    (zext16 b + zext16 nnn).toNat = b.toNat + nnn.toNat := by
  have hb := b.isLt
  have hn := nnn.isLt
  rw [BitVec.toNat_add, zext16_nnn_toNat, BitVec.toNat_setWidth_of_le (by decide), Nat.mod_eq_of_lt (by omega)]

/-- No word can be fetched from a `PC` above 4094 (R64). -/
theorem State.fetch?_eq_none {s : State} (h : s.pc.toNat > 4094) : s.fetch? = none := by
  rcases State.fetch?_spec s with ⟨-, hnone⟩ | ⟨hle, -⟩
  · exact hnone
  · omega

/-! ### The two outcomes of a skip (R169) -/

section
variable (s : State) {p : Prop} [Decidable p]

theorem State.skipIf_of_holds (h : p) : s.skipIf (decide p) = { s with pc := s.pc + 4 } := by
  rw [State.skipIf_eq, decide_eq_true h, if_pos rfl]

theorem State.skipIf_of_fails (h : ¬p) : s.skipIf (decide p) = { s with pc := s.pc + 2 } := by
  rw [State.skipIf_eq, decide_eq_false h, if_neg Bool.false_ne_true]

end

/-! ### The meanings of the control flow instructions without the stack -/

/-- `00E0` clears the display, raises the draw request and advances (R160). -/
theorem exec_cls (s : State) :
    exec .cls s = .next { s with display := Display.off, drawRequested := true, pc := s.pc + 2 } := rfl

/-- `1nnn` takes the address as it is (R162). -/
theorem exec_jp (s : State) (nnn : BitVec 12) : exec (.jp nnn) s = .next { s with pc := zext16 nnn } := rfl

/-- `Bnnn` adds `V[0]` to the address (R168). -/
theorem exec_jpV0 (s : State) (nnn : BitVec 12) :
    exec (.jpV0 nnn) s = .next { s with pc := zext16 (s.getV 0) + zext16 nnn } := rfl

/-- `3xkk` skips on equality with the constant (R164). -/
theorem exec_seImm (s : State) (x : Reg) (kk : Byte) :
    exec (.seImm x kk) s = .next (s.skipIf (decide (s.getV x = kk))) := rfl

/-- `4xkk` skips on inequality with the constant (R165). -/
theorem exec_sneImm (s : State) (x : Reg) (kk : Byte) :
    exec (.sneImm x kk) s = .next (s.skipIf (decide (s.getV x ≠ kk))) := rfl

/-- `5xy0` is the skip of `3xkk` with `V[y]` for the constant (R166). -/
theorem exec_seReg (s : State) (x y : Reg) : exec (.seReg x y) s = exec (.seImm x (s.getV y)) s := rfl

/-- `9xy0` is the skip of `4xkk` with `V[y]` for the constant (R167). -/
theorem exec_sneReg (s : State) (x y : Reg) : exec (.sneReg x y) s = exec (.sneImm x (s.getV y)) s := rfl

/-! ### The decoder on groups 5 and 9 (R94, R166, R167) -/

/-- A word `5xyN` is a skip when its low nibble is 0, and a decode error otherwise. -/
theorem decode_formatXYN_five (x y : Reg) (n : BitVec 4) :
    decode (formatXYN 5 x y n) = if n = 0 then .ok (.seReg x y) else .error .group5 := by
  have hg : fieldG (formatXYN 5 x y n) = 5 := fieldG_formatXYN 5 x y n
  simp only [decode, hg, fieldX_formatXYN, fieldY_formatXYN, fieldN_formatXYN]

/-- A word `9xyN` is a skip when its low nibble is 0, and a decode error otherwise. -/
theorem decode_formatXYN_nine (x y : Reg) (n : BitVec 4) :
    decode (formatXYN 9 x y n) = if n = 0 then .ok (.sneReg x y) else .error .group9 := by
  have hg : fieldG (formatXYN 9 x y n) = 9 := fieldG_formatXYN 9 x y n
  simp only [decode, hg, fieldX_formatXYN, fieldY_formatXYN, fieldN_formatXYN]

/-! ### The statements -/

/-- Settles O22: the cleared display is the one with no lit pixel. -/
theorem clearScreen : Obligations.ClearScreen := by
  unfold Obligations.ClearScreen
  intro s
  exact ⟨_, exec_cls s, fun _ => rfl, rfl, rfl, rfl⟩

/-- Settles O23: both targets are exact sums below 2^16, and one above 4094 leaves no word to fetch. -/
theorem jumps : Obligations.Jumps := by
  unfold Obligations.Jumps
  intro s nnn
  have hdirect := zext16_nnn_toNat nnn
  have hindexed := zext16_byte_add_nnn_toNat (s.getV 0) nnn
  refine ⟨⟨_, exec_jp s nnn, hdirect, rfl, fun hmax => ?_⟩,
    ⟨_, exec_jpV0 s nnn, hindexed, ?_, rfl, State.fetch?_eq_none⟩⟩
  · subst hmax
    exact State.fetch?_eq_none (show (zext16 0xFFF#12).toNat > 4094 by decide)
  · have hb := (s.getV 0).isLt
    have hn := nnn.isLt
    exact hindexed.trans_le (by omega)

/-- Settles O24: the two skips test opposite conditions, so one of them skips exactly when the other does not. -/
theorem skipOnImmediate : Obligations.SkipOnImmediate := by
  unfold Obligations.SkipOnImmediate
  intro s x kk
  rw [exec_seImm, exec_sneImm]
  refine ⟨fun heq => ⟨?_, ?_⟩, fun hne => ⟨?_, ?_⟩⟩
  · rw [State.skipIf_of_holds s heq]
  · rw [State.skipIf_of_fails s (not_not_intro heq)]
  · rw [State.skipIf_of_fails s hne]
  · rw [State.skipIf_of_holds s hne]

/-- Settles O25: the register skips are the immediate skips at `V[y]`, and the decoder refuses every other low nibble. -/
theorem skipOnRegisters : Obligations.SkipOnRegisters := by
  unfold Obligations.SkipOnRegisters
  refine ⟨fun s x y => ?_, fun x y n hn => ⟨?_, ?_⟩⟩
  · rw [exec_seReg, exec_sneReg]
    exact skipOnImmediate s x (s.getV y)
  · rw [decode_formatXYN_five, if_neg hn]
  · rw [decode_formatXYN_nine, if_neg hn]

end Sys2Proof.Machine
end

section
/-!
PROOFS. The timers family (spec/43_timers.md rules R181 to R183): what the three timer instructions leave.
-/

namespace Sys2Proof.Machine

/-! ### The meanings of the timer instructions -/

/-- `Fx07` is one register write of the delay timer and the advance (R181). -/
theorem exec_ldVxDT (s : State) (x : Reg) : exec (.ldVxDT x) s = .next (s.setV x s.delay).advanceNext := rfl

/-- `Fx15` sets the delay timer and advances (R182). -/
theorem exec_ldDTVx (s : State) (x : Reg) :
    exec (.ldDTVx x) s = .next { s with delay := s.getV x, pc := s.pc + 2 } := rfl

/-- `Fx18` sets the sound timer and advances (R183). -/
theorem exec_ldSTVx (s : State) (x : Reg) :
    exec (.ldSTVx x) s = .next { s with sound := s.getV x, pc := s.pc + 2 } := rfl

/-! ### The statement -/

/-- Settles O29: the read is one register write and the advance, whose frame keeps the delay timer, and the two sets have the exact
next state. -/
theorem timerInstructions : Obligations.TimerInstructions := by
  unfold Obligations.TimerInstructions
  intro s x
  exact ⟨⟨_, exec_ldVxDT s x, State.setV_advanceNext_spec s x s.delay⟩, exec_ldDTVx s x, exec_ldSTVx s x⟩

end Sys2Proof.Machine
end

section
/-!
PROOFS. The sprite and memory family (spec/45_sprite_memory.md rules R210 to R219): what the index load leaves.
-/

namespace Sys2Proof.Machine

/-- `Annn` sets `I` to the zero-extended address, unchecked, and advances (R210). -/
theorem exec_ldI (s : State) (nnn : BitVec 12) :
    exec (.ldI nnn) s = .next { s with i := zext16 nnn, pc := s.pc + 2 } := rfl

/-- Settles O40: `Annn` has one exact next state, whose `I` is the zero-extended address, of the same value as `nnn`. -/
theorem loadIndex : Obligations.LoadIndex := by
  unfold Obligations.LoadIndex
  intro s nnn
  exact ⟨_, exec_ldI s nnn, zext16_nnn_toNat nnn, rfl, rfl⟩

end Sys2Proof.Machine
end

section
/-!
PROOFS. The encoding (spec/30_encoding.md rules R90 to R96): decode and encode are inverse to each other, the decoder accepts exactly the
words of the table, and its refusals group by group.
-/

namespace Sys2Proof

/-! ### A word is put together from its fields (R91) -/

theorem formatNNN_fields {op : Word} {g : BitVec 4} (hg : fieldG op = g.toNat) : formatNNN g (fieldNNN op) = op := by
  apply BitVec.eq_of_toNat_eq
  rw [formatNNN_toNat, ← hg, fieldG_eq, fieldNNN_toNat]
  omega

theorem formatXKK_fields {op : Word} {g : BitVec 4} (hg : fieldG op = g.toNat) :
    formatXKK g (fieldX op) (fieldKK op) = op := by
  apply BitVec.eq_of_toNat_eq
  rw [formatXKK_toNat, ← hg, fieldG_eq, fieldX_val, fieldKK_toNat]
  omega

theorem formatXYN_fields {op : Word} {g : BitVec 4} (hg : fieldG op = g.toNat) :
    formatXYN g (fieldX op) (fieldY op) (fieldN op) = op := by
  apply BitVec.eq_of_toNat_eq
  rw [formatXYN_toNat, ← hg, fieldG_eq, fieldX_val, fieldY_val, fieldN_toNat]
  omega

theorem fieldG_lt (op : Word) : fieldG op < 16 := (op.extractLsb' 12 4).isLt

/-! ### Encode, then decode -/

/-- Settles O1: each format's fields are read back from its word, and the group (with the low bits where the group has a second level)
selects the constructor that was encoded. -/
theorem decodeOfEncode : Obligations.DecodeOfEncode := by
  unfold Obligations.DecodeOfEncode
  intro i
  cases i with
  | cls | ret => rfl
  | jp nnn | call nnn | ldI nnn | jpV0 nnn =>
    simp [encode, decode, fieldG_formatNNN, fieldNNN_formatNNN]
  | seImm x kk | sneImm x kk | ldImm x kk | addImm x kk | rnd x kk =>
    simp [encode, decode, fieldG_formatXKK, fieldX_formatXKK, fieldKK_formatXKK]
  | skp x | sknp x =>
    simp [encode, decode, decodeGroupE, fieldG_formatXKK, fieldX_formatXKK, fieldKK_formatXKK]
  | ldVxDT x | ldVxK x | ldDTVx x | ldSTVx x | ldF x | ldB x | storeRegs x | loadRegs x =>
    simp [encode, decode, decodeGroupF, fieldG_formatXKK, fieldX_formatXKK, fieldKK_formatXKK]
  | seReg x y => exact Machine.decode_formatXYN_five x y 0
  | sneReg x y => exact Machine.decode_formatXYN_nine x y 0
  | ldReg x y | orReg x y | andReg x y | xorReg x y | addReg x y | subReg x y | shrReg x y | subnReg x y | shlReg x y =>
    exact Machine.decode_formatXYN_eight x y _
  | drw x y n => simp [encode, decode, fieldG_formatXYN, fieldX_formatXYN, fieldY_formatXYN, fieldN_formatXYN]

/-! ### Decode, then encode -/

theorem encode_of_decodeGroup0 {op : Word} {i : Instr} (h : decodeGroup0 op = .ok i) : encode i = op := by
  unfold decodeGroup0 at h
  split_ifs at h with hcls hret
  · cases h
    exact hcls.symm
  · cases h
    exact hret.symm

theorem encode_of_decodeGroup8 {x y : Reg} {n : BitVec 4} {i : Instr} (h : decodeGroup8 x y n = .ok i) :
    encode i = formatXYN 8 x y n := by
  unfold decodeGroup8 at h
  split at h <;> cases h
  all_goals
    rename_i hn
    exact congrArg (formatXYN 8 x y) (BitVec.eq_of_toNat_eq hn.symm)

theorem encode_of_decodeGroupE {x : Reg} {kk : Byte} {i : Instr} (h : decodeGroupE x kk = .ok i) :
    encode i = formatXKK 0xE x kk := by
  unfold decodeGroupE at h
  split at h <;> cases h
  all_goals
    rename_i hkk
    exact congrArg (formatXKK 0xE x) (BitVec.eq_of_toNat_eq hkk.symm)

theorem encode_of_decodeGroupF {x : Reg} {kk : Byte} {i : Instr} (h : decodeGroupF x kk = .ok i) :
    encode i = formatXKK 0xF x kk := by
  unfold decodeGroupF at h
  split at h <;> cases h
  all_goals
    rename_i hkk
    exact congrArg (formatXKK 0xF x) (BitVec.eq_of_toNat_eq hkk.symm)

/-- Settles O2: in every group the instruction decoded carries exactly the word's fields, and a word is put together from them. -/
theorem encodeOfDecode : Obligations.EncodeOfDecode := by
  unfold Obligations.EncodeOfDecode
  intro op i h
  have hlt := fieldG_lt op
  unfold decode at h
  split at h
  case h_1 => exact encode_of_decodeGroup0 h
  case h_2 hg | h_3 hg | h_11 hg | h_12 hg => cases h; exact formatNNN_fields hg
  case h_4 hg | h_5 hg | h_7 hg | h_8 hg | h_13 hg => cases h; exact formatXKK_fields hg
  case h_6 hg | h_10 hg =>
    split at h
    case isTrue hn => cases h; rw [encode, ← hn]; exact formatXYN_fields hg
    case isFalse => cases h
  case h_9 hg => rw [encode_of_decodeGroup8 h]; exact formatXYN_fields hg
  case h_14 hg => cases h; exact formatXYN_fields hg
  case h_15 hg => rw [encode_of_decodeGroupE h]; exact formatXKK_fields hg
  case h_16 =>
    rw [encode_of_decodeGroupF h]
    simp only [imp_false] at *
    have hg : fieldG op = 15 := by omega
    exact formatXKK_fields hg

/-! ### The refusals, group by group (R96) -/

theorem decodeGroup0_eq_error (op : Word) (e : Undefined) :
    decodeGroup0 op = .error e ↔ (op ≠ 0x00E0 ∧ op ≠ 0x00EE) ∧ e = .group0 := by
  unfold decodeGroup0
  split_ifs with hcls hret
  · simp [hcls]
  · simp [hret]
  · constructor
    · intro h
      cases h
      exact ⟨⟨hcls, hret⟩, rfl⟩
    · rintro ⟨-, rfl⟩
      rfl

theorem decodeGroup8_eq_error (x y : Reg) (n : BitVec 4) (e : Undefined) :
    decodeGroup8 x y n = .error e ↔ n.toNat ∈ [8, 9, 10, 11, 12, 13, 15] ∧ e = .group8 := by
  have hlt := n.isLt
  generalize hn : n.toNat = m at hlt
  simp only [decodeGroup8, hn]
  interval_cases m <;> simp [eq_comm]

theorem decodeGroupE_eq_error (x : Reg) (kk : Byte) (e : Undefined) :
    decodeGroupE x kk = .error e ↔ kk.toNat ∉ [0x9E, 0xA1] ∧ e = .groupE := by
  unfold decodeGroupE
  split <;> simp_all [eq_comm]

theorem decodeGroupF_eq_error (x : Reg) (kk : Byte) (e : Undefined) :
    decodeGroupF x kk = .error e ↔
      kk.toNat ∉ [0x07, 0x0A, 0x15, 0x18, 0x29, 0x33, 0x55, 0x65] ∧ e = .groupF := by
  unfold decodeGroupF
  split <;> simp_all [eq_comm]

/-- Everything the decoder can refuse: the refusals of the four groups with a function of their own, and a low nibble other than 0 in
groups 5 and 9 (R94, R96). -/
theorem decode_eq_error (op : Word) (e : Undefined) :
    decode op = .error e ↔
      (fieldG op = 0 ∧ (op ≠ 0x00E0 ∧ op ≠ 0x00EE) ∧ e = .group0) ∨
      (fieldG op = 5 ∧ fieldN op ≠ 0 ∧ e = .group5) ∨
      (fieldG op = 8 ∧ (fieldN op).toNat ∈ [8, 9, 10, 11, 12, 13, 15] ∧ e = .group8) ∨
      (fieldG op = 9 ∧ fieldN op ≠ 0 ∧ e = .group9) ∨
      (fieldG op = 14 ∧ (fieldKK op).toNat ∉ [0x9E, 0xA1] ∧ e = .groupE) ∨
      (fieldG op = 15 ∧ (fieldKK op).toNat ∉ [0x07, 0x0A, 0x15, 0x18, 0x29, 0x33, 0x55, 0x65] ∧ e = .groupF) := by
  rw [← decodeGroup0_eq_error, ← decodeGroup8_eq_error (fieldX op) (fieldY op), ← decodeGroupE_eq_error (fieldX op),
    ← decodeGroupF_eq_error (fieldX op)]
  have hlt := fieldG_lt op
  generalize hg : fieldG op = g at hlt
  simp only [decode, hg]
  interval_cases g <;> simp
  -- groups 5 and 9, whose low nibble is compared
  all_goals split <;> simp_all [eq_comm]

/-- Settles O6: each group's refusals read off the decoder's. -/
theorem undefinedWordsByGroup : Obligations.UndefinedWordsByGroup := by
  unfold Obligations.UndefinedWordsByGroup
  intro op
  have hbyte : ∀ b : Byte, fieldKK op = b ↔ (fieldKK op).toNat = b.toNat := fun b => BitVec.toNat_inj.symm
  simp [decode_eq_error, hbyte]

/-! ### The table (R95) -/

/-- Settles O4: if a word matched two rows, each row's match would agree with the other's under both masks; no two rows' do. -/
theorem tableRowsDisjoint : Obligations.TableRowsDisjoint := by
  unfold Obligations.TableRowsDisjoint
  have hdiffer : opcodeRows.Pairwise (fun r t => r.pattern &&& t.mask ≠ t.pattern &&& r.mask) := by decide
  refine hdiffer.imp ?_
  intro r t hne op hboth
  obtain ⟨hr, ht⟩ := hboth
  have hr : op &&& r.mask = r.pattern := eq_of_beq hr
  have ht : op &&& t.mask = t.pattern := eq_of_beq ht
  apply hne
  rw [← hr, ← ht, BitVec.and_assoc, BitVec.and_assoc, BitVec.and_comm r.mask]

theorem fieldG_eq_of_mask {op p : Word} (h : op &&& 0xF000 = p) : fieldG op = fieldG p := by
  have hp : (op &&& 0xF000#16).toNat = p.toNat := congrArg BitVec.toNat h
  rw [mask_group_toNat] at hp
  rw [fieldG_eq, fieldG_eq, ← hp]
  omega

/-- A mask of the top nibble and the low `j` bits fixes the group and those low bits. -/
theorem fields_eq_of_maskLow {op p : Word} {j : Nat} (hj : j ≤ 8)
    (h : op &&& (0xF000#16 ||| BitVec.ofNat 16 (2 ^ j - 1)) = p) :
    fieldG op = fieldG p ∧ op.toNat % 2 ^ j = p.toNat % 2 ^ j := by
  have hp := congrArg BitVec.toNat h
  rw [mask_groupLow_toNat op hj] at hp
  have hpow : 2 ^ j ∣ 4096 := Nat.pow_dvd_pow 2 (show j ≤ 12 by omega)
  have hlt : op.toNat % 2 ^ j < 4096 := (Nat.mod_lt _ (Nat.two_pow_pos j)).trans_le (Nat.le_of_dvd (by decide) hpow)
  refine ⟨?_, ?_⟩
  · rw [fieldG_eq, fieldG_eq, ← hp]
    omega
  · rw [← hp, Nat.add_mod, Nat.mod_eq_zero_of_dvd (hpow.mul_left _), Nat.zero_add, Nat.mod_mod, Nat.mod_mod]

/-- The bits the decoder looks at to choose a constructor, group by group (R93, R94). -/
def selectorMask (g : Nat) : Word :=
  match g with
  | 0 => 0xFFFF
  | 5 | 8 | 9 => 0xF00F
  | 14 | 15 => 0xF0FF
  | _ => 0xF000

/-- A row's mask is the selector mask of its group, and its match is itself a word that decodes. -/
theorem opcodeRows_selector : ∀ r ∈ opcodeRows,
    r.mask = selectorMask (fieldG r.pattern) ∧ (decode r.pattern).toOption.isSome = true := by
  decide

theorem fieldG_eq_of_selectorMask {op p : Word} (h : op &&& selectorMask (fieldG p) = p) : fieldG op = fieldG p := by
  unfold selectorMask at h
  split at h
  case h_1 => rw [← h, show (0xFFFF : Word) = BitVec.allOnes 16 from rfl, BitVec.and_allOnes]
  case h_2 | h_3 | h_4 => exact (fields_eq_of_maskLow (j := 4) (by decide) h).1
  case h_5 | h_6 => exact (fields_eq_of_maskLow (j := 8) (by decide) h).1
  case h_7 => exact fieldG_eq_of_mask h

/-- A word refused by the decoder stays refused when the bits the decoder does not look at are cleared. -/
theorem decode_eq_error_of_selectorMask {op p : Word} {e : Undefined} (h : op &&& selectorMask (fieldG p) = p)
    (he : decode op = .error e) : decode p = .error e := by
  have hg := fieldG_eq_of_selectorMask h
  have hn : selectorMask (fieldG p) = 0xF00F → fieldN op = fieldN p := by
    intro hm
    rw [hm] at h
    apply BitVec.eq_of_toNat_eq
    rw [fieldN_toNat, fieldN_toNat]
    exact (fields_eq_of_maskLow (j := 4) (by decide) h).2
  have hkk : selectorMask (fieldG p) = 0xF0FF → fieldKK op = fieldKK p := by
    intro hm
    rw [hm] at h
    apply BitVec.eq_of_toNat_eq
    rw [fieldKK_toNat, fieldKK_toNat]
    exact (fields_eq_of_maskLow (j := 8) (by decide) h).2
  rw [decode_eq_error, hg] at he
  rw [decode_eq_error]
  obtain ⟨hz, hrest⟩ | ⟨hz, hrest⟩ | ⟨hz, hrest⟩ | ⟨hz, hrest⟩ | ⟨hz, hrest⟩ | ⟨hz, hrest⟩ := he
  all_goals rw [hz] at h hn hkk
  · rw [show selectorMask 0 = BitVec.allOnes 16 from rfl, BitVec.and_allOnes] at h
    exact .inl ⟨hz, h ▸ hrest⟩
  · exact .inr (.inl ⟨hz, hn rfl ▸ hrest⟩)
  · exact .inr (.inr (.inl ⟨hz, hn rfl ▸ hrest⟩))
  · exact .inr (.inr (.inr (.inl ⟨hz, hn rfl ▸ hrest⟩)))
  · exact .inr (.inr (.inr (.inr (.inl ⟨hz, hkk rfl ▸ hrest⟩))))
  · exact .inr (.inr (.inr (.inr (.inr ⟨hz, hkk rfl ▸ hrest⟩))))

theorem wellFormedWord_encode (i : Instr) : wellFormedWord (encode i) = true := by
  cases i with
  | cls => exact Laws.EncodedWord.cls
  | ret => exact Laws.EncodedWord.ret
  | jp nnn => exact Laws.EncodedWord.jp nnn
  | call nnn => exact Laws.EncodedWord.call nnn
  | seImm x kk => exact Laws.EncodedWord.seImm x kk
  | sneImm x kk => exact Laws.EncodedWord.sneImm x kk
  | seReg x y => exact Laws.EncodedWord.seReg x y
  | ldImm x kk => exact Laws.EncodedWord.ldImm x kk
  | addImm x kk => exact Laws.EncodedWord.addImm x kk
  | ldReg x y => exact Laws.EncodedWord.ldReg x y
  | orReg x y => exact Laws.EncodedWord.orReg x y
  | andReg x y => exact Laws.EncodedWord.andReg x y
  | xorReg x y => exact Laws.EncodedWord.xorReg x y
  | addReg x y => exact Laws.EncodedWord.addReg x y
  | subReg x y => exact Laws.EncodedWord.subReg x y
  | shrReg x y => exact Laws.EncodedWord.shrReg x y
  | subnReg x y => exact Laws.EncodedWord.subnReg x y
  | shlReg x y => exact Laws.EncodedWord.shlReg x y
  | sneReg x y => exact Laws.EncodedWord.sneReg x y
  | ldI nnn => exact Laws.EncodedWord.ldI nnn
  | jpV0 nnn => exact Laws.EncodedWord.jpV0 nnn
  | rnd x kk => exact Laws.EncodedWord.rnd x kk
  | drw x y n => exact Laws.EncodedWord.drw x y n
  | skp x => exact Laws.EncodedWord.skp x
  | sknp x => exact Laws.EncodedWord.sknp x
  | ldVxDT x => exact Laws.EncodedWord.ldVxDT x
  | ldVxK x => exact Laws.EncodedWord.ldVxK x
  | ldDTVx x => exact Laws.EncodedWord.ldDTVx x
  | ldSTVx x => exact Laws.EncodedWord.ldSTVx x
  | ldF x => exact Laws.EncodedWord.ldF x
  | ldB x => exact Laws.EncodedWord.ldB x
  | storeRegs x => exact Laws.EncodedWord.storeRegs x
  | loadRegs x => exact Laws.EncodedWord.loadRegs x

/-- Settles O3: a word that decodes is an encoded word, and an encoded word matches its row; a word that matches a row is refused only if
the row's own match were. -/
theorem decodesExactlyTheTable : Obligations.DecodesExactlyTheTable := by
  unfold Obligations.DecodesExactlyTheTable
  intro op
  constructor
  · rintro ⟨i, hi⟩
    rw [← encodeOfDecode op i hi]
    exact wellFormedWord_encode i
  · intro hwf
    obtain ⟨r, hmem, hmatch⟩ := List.any_eq_true.mp hwf
    have hmatch : op &&& r.mask = r.pattern := eq_of_beq hmatch
    obtain ⟨hmask, hsome⟩ := opcodeRows_selector r hmem
    rw [hmask] at hmatch
    cases hd : decode op with
    | ok i => exact ⟨i, rfl⟩
    | error e =>
      rw [decode_eq_error_of_selectorMask hmatch hd] at hsome
      cases hsome

/-- Settles O5: the decoder is evaluated on each word. -/
theorem sampleWordsDecode : Obligations.SampleWordsDecode := by
  unfold Obligations.SampleWordsDecode
  decide

end Sys2Proof
end

section
/-!
PROOFS. What an instruction can do: the meanings that earlier parts leave out, each as one equation, and the list of effects of which
every instruction has one (spec/40_step_dispatch.md R123, spec/60_exceptions.md R239, R240). Rules about all instructions are read off
that list.
-/

namespace Sys2Proof.Machine

/-! ### The meanings -/

/-- `00EE` with a pending call (R161, R171). -/
theorem exec_ret_of_pos {s : State} (h : 0 < s.sp.val) :
    exec .ret s = .next { s with sp := ⟨s.sp.val - 1, by omega⟩, pc := s.stack[s.sp.val - 1] } := by
  simp [exec, execRet, State.returnStep, State.pop?, h]

/-- `00EE` with no pending call (R161, R233). -/
theorem exec_ret_of_zero {s : State} (h : s.sp.val = 0) :
    exec .ret s = .next (s.raise .stackUnderflow (encode .ret) 0) := by
  simp [exec, execRet, State.returnStep, State.pop?, h]

/-- `2nnn` with room on the stack (R163, R171). -/
theorem exec_call_of_lt {s : State} (nnn : BitVec 12) (h : s.sp.val < 16) :
    exec (.call nnn) s = .next { s with stack := s.stack.set s.sp.val (s.pc + 2), sp := ⟨s.sp.val + 1, by omega⟩,
                                        pc := zext16 nnn } := by
  simp [exec, execCall, State.callStep, State.push?, h]

/-- `2nnn` on a full stack (R163, R232). -/
theorem exec_call_of_full {s : State} (nnn : BitVec 12) (h : s.sp.val = 16) :
    exec (.call nnn) s = .next (s.raise .stackOverflow (encode (.call nnn)) 0) := by
  simp [exec, execCall, State.callStep, State.push?, h]

/-- `Cxkk` writes the step's random byte masked by the constant and advances (R211). -/
theorem exec_rnd (s : State) (x : Reg) (kk : Byte) :
    exec (.rnd x kk) s = .next (s.setV x (s.input.randomByte &&& kk)).advanceNext := rfl

/-- `Fx29` sets `I` to the glyph's address and advances (R215). -/
theorem exec_ldF (s : State) (x : Reg) :
    exec (.ldF x) s = .next { s with i := glyphAddress (s.getV x), pc := s.pc + 2 } := rfl

theorem exec_drw (s : State) (x y : Reg) (n : BitVec 4) :
    exec (.drw x y n) s = .next (s.accessing (.drw x y n) n.toNat (s.drawStep x y n.toNat)) := rfl

theorem exec_ldB (s : State) (x : Reg) :
    exec (.ldB x) s = .next (s.accessing (.ldB x) 3 (s.storeBytes s.i.toNat (bcdDigits (s.getV x))).advanceNext) := rfl

theorem exec_storeRegs (s : State) (x : Reg) :
    exec (.storeRegs x) s =
      .next (s.accessing (.storeRegs x) (x.val + 1) (s.storeBytes s.i.toNat (s.regBlock x)).advanceNext) := rfl

theorem exec_loadRegs (s : State) (x : Reg) :
    exec (.loadRegs x) s =
      .next (s.accessing (.loadRegs x) (x.val + 1)
        { s with v := s.loadBlock x s.i.toNat, pc := s.pc + 2 }) := rfl

/-- `Ex9E` clears the latch named by `V[x]` and skips if it was set (R194). -/
theorem exec_skp (s : State) (x : Reg) :
    exec (.skp x) s = .next { s with kbd := s.kbd.setLatch (lowNibble (s.getV x)) false,
                                     pc := s.pc + if s.kbd.latched (lowNibble (s.getV x)) then 4 else 2 } :=
  congrArg _ (State.skipIf_eq _ _)

/-- `ExA1` clears the latch named by `V[x]` and skips if it was not set (R195). -/
theorem exec_sknp (s : State) (x : Reg) :
    exec (.sknp x) s = .next { s with kbd := s.kbd.setLatch (lowNibble (s.getV x)) false,
                                      pc := s.pc + if !s.kbd.latched (lowNibble (s.getV x)) then 4 else 2 } :=
  congrArg _ (State.skipIf_eq _ _)

/-- `Fx0A` with a queued event (R196). -/
theorem exec_ldVxK_of_pos {s : State} (x : Reg) (h : 0 < s.kbd.qCount.val) :
    exec (.ldVxK x) s = .next (({ s with kbd := s.kbd.dequeue.2 } : State).setV x
      (BitVec.ofNat 8 s.kbd.dequeue.1.val)).advanceNext := by
  simp only [exec, execLdVxK, gt_iff_lt, if_pos h, State.deliverQueued]

/-- `Fx0A` with an empty FIFO (R197). -/
theorem exec_ldVxK_of_zero {s : State} (x : Reg) (h : s.kbd.qCount.val = 0) :
    exec (.ldVxK x) s = .next (s.blockingRead x) := by
  simp [exec, execLdVxK, h]

/-! ### The three answers of the blocking read (R197, R198) -/

theorem State.blockingRead_key {s : State} (x : Reg) {key : Key} (h : s.input.keyAnswer = some (.key key)) :
    s.blockingRead x = (s.setV x (BitVec.ofNat 8 key.val)).advanceNext := by
  simp only [State.blockingRead, h]

theorem State.blockingRead_quit {s : State} (x : Reg) (h : s.input.keyAnswer = some .quit) :
    s.blockingRead x = { s.setV x s.input.quitByte with haltRequested := true } := by
  simp only [State.blockingRead, h]

theorem State.blockingRead_none {s : State} (x : Reg) (h : s.input.keyAnswer = none) :
    s.blockingRead x = { s with waiting := true } := by
  simp only [State.blockingRead, h]

/-! ### The effects -/

/-- The instructions that write a general register and nothing else but the `PC`, with the register they name. -/
def WritesReg (i : Instr) (x : Reg) : Prop :=
  (∃ kk, i = .ldImm x kk ∨ i = .addImm x kk ∨ i = .rnd x kk) ∨ i = .ldVxDT x ∨ i = .ldVxK x

/-- The fatal fault an instruction can raise, and the state of the stack it needs (R232 to R234, R239). -/
def FaultCause (i : Instr) (s : State) (c : FaultCode) : Prop :=
  (c = .stackOverflow ∧ s.sp = 16 ∧ ∃ nnn, i = .call nnn) ∨
  (c = .stackUnderflow ∧ s.sp = 0 ∧ i = .ret) ∨
  (c = .dataAddressFault ∧
    ((∃ x y n, i = .drw x y n) ∨ (∃ x, i = .ldB x) ∨ (∃ x, i = .storeRegs x) ∨ (∃ x, i = .loadRegs x)))

/-- What an instruction can do to a state, one constructor for each kind of effect. -/
inductive Effect (s : State) : Instr → State → Prop
  | cleared : Effect s .cls { s with display := Display.off, drawRequested := true, pc := s.pc + 2 }
  | popped (h : 0 < s.sp.val) :
      Effect s .ret { s with sp := ⟨s.sp.val - 1, by omega⟩, pc := s.stack[s.sp.val - 1] }
  | pushed (nnn : BitVec 12) (h : s.sp.val < 16) :
      Effect s (.call nnn) { s with stack := s.stack.set s.sp.val (s.pc + 2), sp := ⟨s.sp.val + 1, by omega⟩,
                                    pc := zext16 nnn }
  | jumped (i : Instr) (target : Word) (h : target.toNat ≤ 0x10FE) : Effect s i { s with pc := target }
  | skipped (i : Instr) (c : Bool) : Effect s i { s with pc := s.pc + if c then 4 else 2 }
  | wrote (i : Instr) (x : Reg) (b : Byte) (h : WritesReg i x) : Effect s i (s.setV x b).advanceNext
  | computed (f : AluOp) (x y : Reg) : Effect s (f.instr x y) { s with v := (s.aluStep f x y).v, pc := s.pc + 2 }
  | indexed (i : Instr) (a : Word) (hi : (∃ nnn, i = .ldI nnn) ∨ ∃ x, i = .ldF x) (ha : a.toNat ≤ 0x0FFF) :
      Effect s i { s with i := a, pc := s.pc + 2 }
  | setDelay (x : Reg) : Effect s (.ldDTVx x) { s with delay := s.getV x, pc := s.pc + 2 }
  | setSound (x : Reg) : Effect s (.ldSTVx x) { s with sound := s.getV x, pc := s.pc + 2 }
  | drew (x y : Reg) (n : BitVec 4) :
      Effect s (.drw x y n)
        { s with v := (s.drawStep x y n.toNat).v, drawRequested := true, pc := s.pc + 2,
                 display := (Display.toggleAll s.display
                   (s.spritePixels s.i.toNat n.toNat (s.getV x) (s.getV y)) false).2 }
  | consumed (i : Instr) (x : Reg) (c : Bool) (hi : i = .skp x ∨ i = .sknp x) :
      Effect s i { s with kbd := s.kbd.setLatch (lowNibble (s.getV x)) false, pc := s.pc + if c then 4 else 2 }
  | tookKey (x : Reg) : Effect s (.ldVxK x) (({ s with kbd := s.kbd.dequeue.2 } : State).setV x
      (BitVec.ofNat 8 s.kbd.dequeue.1.val)).advanceNext
  | quit (x : Reg) : Effect s (.ldVxK x) { s.setV x s.input.quitByte with haltRequested := true }
  | blocked (x : Reg) (h : s.kbd.qCount.val = 0) : Effect s (.ldVxK x) { s with waiting := true }
  | stored (i : Instr) (x : Reg) (bs : List Byte) (hi : i = .ldB x ∨ i = .storeRegs x) :
      Effect s i (s.storeBytes s.i.toNat bs).advanceNext
  | loaded (x : Reg) : Effect s (.loadRegs x) { s with v := s.loadBlock x s.i.toNat, pc := s.pc + 2 }
  | raised (i : Instr) (c : FaultCode) (a : Nat) (h : FaultCause i s c) : Effect s i (s.raise c (encode i) a)

/-- An accessing instruction has its body's effect or raises `DataAddressFault`. -/
theorem Effect.accessing {s body : State} {i : Instr} {count : Nat} (h : Effect s i body)
    (hi : FaultCause i s .dataAddressFault) : Effect s i (s.accessing i count body) := by
  rcases State.accessing_spec s i count body with ⟨-, heq⟩ | ⟨-, -, heq⟩
  · rw [heq]
    exact h
  · rw [heq]
    exact .raised i .dataAddressFault _ hi

/-- The four instructions that read or write a block of memory can raise `DataAddressFault`. -/
theorem FaultCause.dataAddress {i : Instr} {s : State}
    (h : (∃ x y n, i = .drw x y n) ∨ (∃ x, i = .ldB x) ∨ (∃ x, i = .storeRegs x) ∨ (∃ x, i = .loadRegs x)) :
    FaultCause i s .dataAddressFault := .inr (.inr ⟨rfl, h⟩)

theorem lowNibble_val (b : Byte) : (lowNibble b).val = b.toNat % 16 := by
  simp [lowNibble]

theorem glyphAddress_toNat (b : Byte) : (glyphAddress b).toNat = 5 * (b.toNat % 16) := by
  rw [glyphAddress, BitVec.toNat_ofNat, lowNibble_val]
  omega

theorem Effect.of_skipIf (s : State) (i : Instr) (c : Bool) : Effect s i (s.skipIf c) :=
  State.skipIf_eq s c ▸ .skipped i c

theorem Effect.of_aluStep (s : State) (f : AluOp) (x y : Reg) : Effect s (f.instr x y) (s.aluStep f x y) := by
  obtain ⟨hframe, hpc⟩ := State.aluStep_frame s f x y
  rw [OnlyVAndPc, hpc] at hframe
  rw [hframe]
  exact .computed f x y

/-- Every instruction answers a next state, by one of the effects. -/
theorem exec_effect (i : Instr) (s : State) : ∃ t, exec i s = .next t ∧ Effect s i t := by
  cases i with
  | cls => exact ⟨_, exec_cls s, .cleared⟩
  | ret =>
    rcases Nat.eq_zero_or_pos s.sp.val with h | h
    · exact ⟨_, exec_ret_of_zero h, .raised .ret _ 0 (.inr (.inl ⟨rfl, Fin.ext h, rfl⟩))⟩
    · exact ⟨_, exec_ret_of_pos h, .popped h⟩
  | call nnn =>
    rcases Nat.lt_or_ge s.sp.val 16 with h | h
    · exact ⟨_, exec_call_of_lt nnn h, .pushed nnn h⟩
    · have h : s.sp.val = 16 := by omega
      exact ⟨_, exec_call_of_full nnn h, .raised (.call nnn) _ 0 (.inl ⟨rfl, Fin.ext h, nnn, rfl⟩)⟩
  | jp nnn =>
    refine ⟨_, exec_jp s nnn, .jumped _ _ ?_⟩
    have := nnn.isLt
    rw [zext16_nnn_toNat]
    omega
  | jpV0 nnn =>
    refine ⟨_, exec_jpV0 s nnn, .jumped _ _ ?_⟩
    have := nnn.isLt
    have := (s.getV 0).isLt
    rw [zext16_byte_add_nnn_toNat]
    omega
  | seImm x kk => exact ⟨_, exec_seImm s x kk, .of_skipIf s _ _⟩
  | sneImm x kk => exact ⟨_, exec_sneImm s x kk, .of_skipIf s _ _⟩
  | seReg x y => exact ⟨_, exec_seReg s x y, .of_skipIf s _ _⟩
  | sneReg x y => exact ⟨_, exec_sneReg s x y, .of_skipIf s _ _⟩
  | ldImm x kk => exact ⟨_, exec_ldImm s x kk, .wrote _ x _ (.inl ⟨kk, .inl rfl⟩)⟩
  | addImm x kk => exact ⟨_, exec_addImm s x kk, .wrote _ x _ (.inl ⟨kk, .inr (.inl rfl)⟩)⟩
  | rnd x kk => exact ⟨_, exec_rnd s x kk, .wrote _ x _ (.inl ⟨kk, .inr (.inr rfl)⟩)⟩
  | ldVxDT x => exact ⟨_, exec_ldVxDT s x, .wrote _ x _ (.inr (.inl rfl))⟩
  | ldReg x y => exact ⟨_, rfl, .of_aluStep s .copy x y⟩
  | orReg x y => exact ⟨_, rfl, .of_aluStep s .bitOr x y⟩
  | andReg x y => exact ⟨_, rfl, .of_aluStep s .bitAnd x y⟩
  | xorReg x y => exact ⟨_, rfl, .of_aluStep s .bitXor x y⟩
  | addReg x y => exact ⟨_, rfl, .of_aluStep s .add x y⟩
  | subReg x y => exact ⟨_, rfl, .of_aluStep s .sub x y⟩
  | shrReg x y => exact ⟨_, rfl, .of_aluStep s .shr x y⟩
  | subnReg x y => exact ⟨_, rfl, .of_aluStep s .subn x y⟩
  | shlReg x y => exact ⟨_, rfl, .of_aluStep s .shl x y⟩
  | ldI nnn =>
    refine ⟨_, exec_ldI s nnn, .indexed _ _ (.inl ⟨nnn, rfl⟩) ?_⟩
    have := nnn.isLt
    rw [zext16_nnn_toNat]
    omega
  | ldF x =>
    refine ⟨_, exec_ldF s x, .indexed _ _ (.inr ⟨x, rfl⟩) ?_⟩
    rw [glyphAddress_toNat]
    omega
  | ldDTVx x => exact ⟨_, exec_ldDTVx s x, .setDelay x⟩
  | ldSTVx x => exact ⟨_, exec_ldSTVx s x, .setSound x⟩
  | skp x => exact ⟨_, exec_skp s x, .consumed _ x _ (.inl rfl)⟩
  | sknp x => exact ⟨_, exec_sknp s x, .consumed _ x _ (.inr rfl)⟩
  | ldVxK x =>
    rcases Nat.eq_zero_or_pos s.kbd.qCount.val with h | h
    · refine ⟨_, exec_ldVxK_of_zero x h, ?_⟩
      cases ha : s.input.keyAnswer with
      | none => exact State.blockingRead_none x ha ▸ .blocked x h
      | some a =>
        cases a with
        | key key => exact State.blockingRead_key x ha ▸ .wrote _ x _ (.inr (.inr rfl))
        | quit => exact State.blockingRead_quit x ha ▸ .quit x
    · exact ⟨_, exec_ldVxK_of_pos x h, .tookKey x⟩
  | drw x y n => exact ⟨_, exec_drw s x y n, (Effect.drew x y n).accessing (.dataAddress (.inl ⟨x, y, n, rfl⟩))⟩
  | ldB x =>
    exact ⟨_, exec_ldB s x, (Effect.stored _ x _ (.inl rfl)).accessing (.dataAddress (.inr (.inl ⟨x, rfl⟩)))⟩
  | storeRegs x =>
    exact ⟨_, exec_storeRegs s x,
      (Effect.stored _ x _ (.inr rfl)).accessing (.dataAddress (.inr (.inr (.inl ⟨x, rfl⟩))))⟩
  | loadRegs x =>
    exact ⟨_, exec_loadRegs s x, (Effect.loaded x).accessing (.dataAddress (.inr (.inr (.inr ⟨x, rfl⟩))))⟩

/-- The next state of an instruction comes about by one of the effects. -/
theorem effect_of_exec {i : Instr} {s t : State} (h : exec i s = .next t) : Effect s i t := by
  obtain ⟨u, hu, heff⟩ := exec_effect i s
  rw [h] at hu
  cases hu
  exact heff

end Sys2Proof.Machine
end

section
/-!
PROOFS. The rules about all instructions (spec/10_state.md R19 to R37, spec/60_exceptions.md R239, R240): what each effect leaves
unchanged.
-/

namespace Sys2Proof.Machine

/-! ### Latches -/

/-- A latch write reads back, and leaves every other latch alone (R27). -/
theorem Keyboard.latched_setLatch (k : Keyboard) (key other : Key) (b : Bool) :
    (k.setLatch key b).latched other = if other = key then b else k.latched other := by
  unfold Keyboard.latched Keyboard.setLatch
  by_cases h : other = key
  · simp [h]
  · have hne : key.val ≠ other.val := fun e => h (Fin.ext e.symm)
    simp [h, Vector.getElem_set_ne, hne]

/-- Settles O39: of the effects on the keyboard block, the key skips write one latch and the FIFO's none. -/
theorem onlyConsumptionClearsALatch : Obligations.OnlyConsumptionClearsALatch := by
  unfold Obligations.OnlyConsumptionClearsALatch
  intro i s t key hexec hne
  cases effect_of_exec hexec
  case consumed x c hi =>
    simp only [Keyboard.latched_setLatch] at hne
    split at hne
    case isTrue hkey => exact ⟨by simpa using hne.symm, x, hi, hkey.symm⟩
    case isFalse => exact absurd rfl hne
  all_goals exact absurd rfl hne

/-! ### Fatal faults -/

/-- From a state without a fault only the raising effect leaves one (R239). -/
theorem Effect.raised_of_fault {i : Instr} {s t : State} (h : Effect s i t) (hs : s.fault = .noFault)
    (ht : t.fault ≠ .noFault) : ∃ c a, FaultCause i s c ∧ t = s.raise c (encode i) a := by
  cases h
  case raised c a hcause => exact ⟨c, a, hcause, rfl⟩
  all_goals exact absurd hs ht

/-- Settles O50: the raising effect writes `fault` and `faultInfo` alone. -/
theorem fatalFaultsArePrecise : Obligations.FatalFaultsArePrecise := by
  unfold Obligations.FatalFaultsArePrecise
  intro i s t hs hexec ht
  obtain ⟨c, a, -, rfl⟩ := (effect_of_exec hexec).raised_of_fault hs ht
  exact ⟨rfl, rfl, rfl⟩

/-- Settles O51: the raising effect names its cause. -/
theorem eachInstructionHasAtMostOneFault : Obligations.EachInstructionHasAtMostOneFault := by
  unfold Obligations.EachInstructionHasAtMostOneFault
  intro i s t hs hexec ht
  obtain ⟨c, a, hcause, rfl⟩ := (effect_of_exec hexec).raised_of_fault hs ht
  exact hcause

/-! ### Who writes what -/

/-- Settles O52: only the storing effect touches the memory. -/
theorem onlyStoresChangeMemory : Obligations.OnlyStoresChangeMemory := by
  unfold Obligations.OnlyStoresChangeMemory
  intro i s t hexec hne
  cases effect_of_exec hexec
  case stored x bs hi => exact ⟨x, hi⟩
  all_goals exact absurd rfl hne

/-- Settles O53: each effect against each element. -/
theorem whoWritesWhat : Obligations.WhoWritesWhat := by
  unfold Obligations.WhoWritesWhat
  intro i s t hexec
  cases effect_of_exec hexec <;> simp
  case indexed a ha hi => exact fun _ => hi

/-- A register write that changes VF is a write to VF. -/
theorem State.eq_vf_of_getV_setV_ne {s : State} {x : Reg} {b : Byte} (h : (s.setV x b).getV vf ≠ s.getV vf) : x = vf := by
  by_contra hx
  exact h (State.getV_setV_ne s b (Ne.symm hx))

/-- A function without a flag changes VF only as its destination. -/
theorem State.eq_vf_of_getV_aluStep_ne {s : State} {f : AluOp} {x y : Reg} (hf : (alu f (s.getV x) (s.getV y)).2 = none)
    (h : (s.aluStep f x y).getV vf ≠ s.getV vf) : x = vf := by
  rw [State.aluStep_of_flag_none hf] at h
  exact State.eq_vf_of_getV_setV_ne h

/-- The `8xyN` instructions that change VF: those with a flag, and the others when `x` is F (R140, R152). -/
theorem AluOp.instr_changes_vf {s : State} (f : AluOp) {x y : Reg} (h : (s.aluStep f x y).getV vf ≠ s.getV vf) :
    (∃ x' y', f.instr x y = .addReg x' y' ∨ f.instr x y = .subReg x' y' ∨ f.instr x y = .shrReg x' y' ∨
      f.instr x y = .subnReg x' y' ∨ f.instr x y = .shlReg x' y') ∨
    (∃ y', f.instr x y = .ldReg vf y' ∨ f.instr x y = .orReg vf y' ∨ f.instr x y = .andReg vf y' ∨
      f.instr x y = .xorReg vf y') := by
  cases f with
  | add | sub | shr | subn | shl => exact .inl ⟨x, y, by simp [AluOp.instr]⟩
  | copy | bitOr | bitAnd | bitXor =>
    obtain rfl := State.eq_vf_of_getV_aluStep_ne rfl h
    exact .inr ⟨y, by simp [AluOp.instr]⟩

/-- The registers after the loading effect (R218). -/
theorem State.getV_loaded (s : State) (x r : Reg) (a : Nat) (pc : Word) :
    ({ s with v := s.loadBlock x a, pc := pc } : State).getV r = if r ≤ x then s.byteAt (a + r.val) else s.getV r := by
  apply State.getV_loadBlock
  rfl

/-- Settles O54: the effects that write registers, and which of them reach VF. -/
theorem whoWritesVF : Obligations.WhoWritesVF := by
  unfold Obligations.WhoWritesVF
  intro i s t hexec hne
  cases effect_of_exec hexec
  case computed f x y =>
    rcases f.instr_changes_vf hne with hflag | hdest
    · exact .inl hflag
    · exact .inr (.inr (.inr (.inl hdest)))
  case drew x y n => exact .inr (.inl ⟨x, y, n, rfl⟩)
  case wrote x b hi =>
    obtain rfl := State.eq_vf_of_getV_setV_ne hne
    rcases hi with hconst | hdelay | hkey
    · exact .inr (.inr (.inl hconst))
    · exact .inr (.inr (.inr (.inr (.inl hdelay))))
    · exact .inr (.inr (.inr (.inr (.inr (.inl hkey)))))
  case tookKey x | quit x =>
    obtain rfl := State.eq_vf_of_getV_setV_ne hne
    exact .inr (.inr (.inr (.inr (.inr (.inl rfl)))))
  case loaded x =>
    rw [State.getV_loaded] at hne
    split at hne
    case isTrue hle =>
      obtain rfl : x = vf := le_antisymm (Fin.le_last x) hle
      exact .inr (.inr (.inr (.inr (.inr (.inr rfl)))))
    case isFalse => exact absurd rfl hne
  all_goals exact absurd rfl hne

end Sys2Proof.Machine
end

section
/-!
PROOFS. The step cycle (spec/40_step_dispatch.md R120 to R126): the gate, phase 2, the fetch, the decode error, and what a step reports.
-/

namespace Sys2Proof.Machine

variable (s : State)

/-! ### Phase 2 keeps everything but the keyboard block and the model's own fields -/

@[simp] theorem State.beginStep_memory : s.beginStep.memory = s.memory := by rw [State.beginStep_eq]
@[simp] theorem State.beginStep_v : s.beginStep.v = s.v := by rw [State.beginStep_eq]
@[simp] theorem State.beginStep_i : s.beginStep.i = s.i := by rw [State.beginStep_eq]
@[simp] theorem State.beginStep_pc : s.beginStep.pc = s.pc := by rw [State.beginStep_eq]
@[simp] theorem State.beginStep_stack : s.beginStep.stack = s.stack := by rw [State.beginStep_eq]
@[simp] theorem State.beginStep_sp : s.beginStep.sp = s.sp := by rw [State.beginStep_eq]
@[simp] theorem State.beginStep_delay : s.beginStep.delay = s.delay := by rw [State.beginStep_eq]
@[simp] theorem State.beginStep_sound : s.beginStep.sound = s.sound := by rw [State.beginStep_eq]
@[simp] theorem State.beginStep_fault : s.beginStep.fault = s.fault := by rw [State.beginStep_eq]
@[simp] theorem State.beginStep_haltRequested : s.beginStep.haltRequested = s.haltRequested := by rw [State.beginStep_eq]
@[simp] theorem State.beginStep_display : s.beginStep.display = s.display := by rw [State.beginStep_eq]
@[simp] theorem State.beginStep_params : s.beginStep.params = s.params := by rw [State.beginStep_eq]
@[simp] theorem State.beginStep_waiting : s.beginStep.waiting = false := by rw [State.beginStep_eq]

@[simp] theorem State.beginStep_gated : s.beginStep.gated = s.gated := by simp [State.gated]

/-- The fetch depends on the `PC` and the memory alone (R64). -/
theorem State.fetch?_congr {s t : State} (hpc : t.pc = s.pc) (hmem : t.memory = s.memory) (hp : t.params = s.params) :
    t.fetch? = s.fetch? := by
  simp [State.fetch?, State.byteAt, hpc, hmem, hp]

@[simp] theorem State.beginStep_fetch? : s.beginStep.fetch? = s.fetch? := State.fetch?_congr (by simp) (by simp) (by simp)

theorem State.fetch?_eq_some {s : State} (h : s.pc.toNat ≤ 4094) :
    s.fetch? = some (wordOfBytes (s.byteAt s.pc.toNat) (s.byteAt (s.pc.toNat + 1))) := by
  rcases State.fetch?_spec s with ⟨hgt, -⟩ | ⟨-, hsome⟩
  · omega
  · exact hsome

/-! ### The gate (R121) -/

theorem State.gated_iff : s.gated = true ↔ s.fault ≠ .noFault ∨ s.haltRequested = true := by
  simp [State.gated]

theorem State.nextHostEvent?_of_nil {s : State} (h : s.events = []) : s.nextHostEvent? = none := by
  unfold State.nextHostEvent?
  split
  case h_1 he => cases h.symm.trans he
  case h_2 => rfl

theorem State.nextHostEvent?_of_cons {s : State} {e : HostEvent} {rest : List Event} (hw : s.waiting = false)
    (h : s.events = .host e :: rest) : s.nextHostEvent? = some (e, { s with events := rest }) := by
  simp only [State.nextHostEvent?, hw, h]

/-- No event other than a step can occur while a step is blocked (R126, R197). -/
theorem State.nextHostEvent?_of_waiting {s : State} (h : s.waiting = true) : s.nextHostEvent? = none := by
  simp only [State.nextHostEvent?, h]

section
variable {s : State} (hn : s.nextHostEvent? = none)
include hn

theorem step_of_gated (hg : s.gated = true) : step s = .next s.dropEvent := by
  simp only [step, hn, stepEvent, hg, if_true]

theorem stepResult_of_gated (hg : s.gated = true) : stepResult s = some .idle := by
  simp only [stepResult, hn, hg, if_true]

theorem step_of_running (hr : s.Running) : step s = fetchAndRun s.beginStep := by
  simp [step, hn, stepEvent, show s.gated = false from hr]

theorem stepResult_of_running (hr : s.Running) : stepResult s = runResult s.beginStep := by
  simp [stepResult, hn, show s.gated = false from hr]

end

/-- Settles O9: a gated step is the use of its pending event. -/
theorem gatedStepIsIdle : Obligations.GatedStepIsIdle := by
  unfold Obligations.GatedStepIsIdle
  intro s hn hover
  have hg := s.gated_iff.mpr hover
  refine ⟨?_, stepResult_of_gated hn hg⟩
  rw [step_of_gated hn hg]
  exact congrArg _ s.dropEvent_eq

/-- Settles O10, by induction on the number of steps: with no event pending there is none to use up. -/
theorem gatedRunNeverChanges : Obligations.GatedRunNeverChanges := by
  unfold Obligations.GatedRunNeverChanges
  intro s k hnil hover
  have hdrop : s.dropEvent = s := by simp only [State.dropEvent, hnil]
  have hstep : Sys2Proof.core.step s = .next s :=
    (step_of_gated (State.nextHostEvent?_of_nil hnil) (s.gated_iff.mpr hover)).trans (congrArg _ hdrop)
  induction k with
  | zero => rfl
  | succ k ih =>
    simp only [Host.Core.run, hstep]
    exact ih

/-- Settles O11: after the gate only a host event does anything, and only `init` writes the machine proper. -/
theorem onlyInitLeavesTheGate : Obligations.OnlyInitLeavesTheGate := by
  unfold Obligations.OnlyInitLeavesTheGate
  intro s t hg hstep
  rcases step_cases s hstep with ⟨e, u, hhost, hout⟩ | ⟨-, -, hout⟩ | ⟨-, hrun, -⟩ | ⟨_, _, -, hrun, -⟩ |
    ⟨_, _, -, hrun, -⟩
  · obtain ⟨hw, rest, hevents, rfl⟩ := s.nextHostEvent?_eq_some hhost
    cases e with
    | init => exact .inl ⟨hw, rest, hevents⟩
    | load bytes =>
      cases hout
      right
      unfold State.load
      split <;> simp
    | tickTimers | ackDraw => cases hout; simp
    | deinit => cases hout
  · cases hout
    right
    rw [State.dropEvent_eq]
    simp
  all_goals exact absurd (hg.symm.trans hrun) (by decide)

/-! ### Fetch, decode, execute -/

theorem fetchAndRun_of_none {s : State} (h : s.fetch? = none) : fetchAndRun s = .next s.raiseFetch := by
  simp only [fetchAndRun, h]

theorem fetchAndRun_of_error {s : State} {op : Word} {e : Undefined} (h : s.fetch? = some op) (hd : decode op = .error e) :
    fetchAndRun s = .next s.decodeErrorStep := by
  simp only [fetchAndRun, h, hd]

theorem fetchAndRun_of_ok {s : State} {op : Word} {i : Instr} (h : s.fetch? = some op) (hd : decode op = .ok i) :
    fetchAndRun s = exec i s := by
  simp only [fetchAndRun, h, hd]

/-- The state and the address a fetch fault leaves: 4096 for the `PC` 4095, whose second byte is missing, else the `PC` (R64, R231). -/
theorem State.raiseFetch_eq (h : s.pc.toNat > 4094) :
    s.raiseFetch = s.faulted .fetchAddressFault 0 (if s.pc.toNat = 4095 then 4096 else BitVec.ofNat 17 s.pc.toNat) := by
  unfold State.raiseFetch State.raise State.faulted
  by_cases hpc : s.pc.toNat = 4095
  · simp [hpc]
  · simp [hpc, show s.pc.toNat > 4095 by omega]

/-- Settles O12: phase 2 keeps the `PC`, and the fetch fault follows. -/
theorem fetchPastMemoryFaults : Obligations.FetchPastMemoryFaults := by
  unfold Obligations.FetchPastMemoryFaults
  intro s hn hr hpc
  have hfetch : s.beginStep.fetch? = none := State.fetch?_eq_none (by simpa using hpc)
  have hraise := s.beginStep.raiseFetch_eq (by simpa using hpc)
  rw [State.beginStep_pc] at hraise
  refine ⟨?_, ?_⟩
  · rw [step_of_running hn hr, fetchAndRun_of_none hfetch, hraise]
  · rw [stepResult_of_running hn hr, runResult, hfetch]
    simp [hraise, resultAfter, State.faulted]

/-- Settles O13: phase 2 keeps the `PC` and the memory, and the decode error follows. -/
theorem undefinedWordIsReported : Obligations.UndefinedWordIsReported := by
  unfold Obligations.UndefinedWordIsReported
  intro s e hn hr hpc hd
  have hfetch := s.beginStep_fetch?.trans (State.fetch?_eq_some hpc)
  refine ⟨?_, ?_⟩
  · rw [step_of_running hn hr, fetchAndRun_of_error hfetch hd]
    simp [State.decodeErrorStep, State.advance, decodeErrorPcAdvance]
  · rw [stepResult_of_running hn hr, runResult, hfetch]
    simp [hd]

theorem runResult_of_ok {s t : State} {op : Word} {i : Instr} (h : s.fetch? = some op) (hd : decode op = .ok i)
    (hexec : exec i s = .next t) : runResult s = resultAfter t := by
  simp only [runResult, h, hd, hexec]

/-- Two bytes decode as the word they make; the rest is given back (R90). -/
theorem decodeBytes_eq_ok {hi lo : Byte} {rest rest' : List Byte} {i : Instr} :
    decodeBytes (hi :: lo :: rest) = .ok (i, rest') ↔ decode (wordOfBytes hi lo) = .ok i ∧ rest = rest' := by
  simp only [decodeBytes]
  cases decode (wordOfBytes hi lo) <;> simp

/-! ### Where a step's answers come from (R126, R127, R197) -/

section
variable {s : State}

theorem State.beginStep_of_new (h : s.waiting = false) : s.beginStep = s.takeInput.poll := by
  simp [State.beginStep, h]

theorem State.beginStep_of_waiting (h : s.waiting = true) : s.beginStep = { s.takeAnswer with waiting := false } := by
  simp [State.beginStep, h]

theorem State.takeInput_of_nil (h : s.events = []) :
    s.takeInput = { s with input := StepInput.free s.draws, draws := s.draws + 1 } := by
  simp [State.takeInput, State.dropEvent, h]

theorem State.takeInput_of_step {input : StepInput} {rest : List Event} (h : s.events = .step input :: rest) :
    s.takeInput = { s with input := input, events := rest } := by
  simp [State.takeInput, h]

theorem State.takeInput_of_answer {a : Option KeyAnswer} {rest : List Event} (h : s.events = .answer a :: rest) :
    s.takeInput = { s with input := StepInput.free s.draws, draws := s.draws + 1, events := rest } := by
  simp [State.takeInput, State.dropEvent, h]

theorem State.takeAnswer_of_answer {a : Option KeyAnswer} {rest : List Event} (h : s.events = .answer a :: rest) :
    s.takeAnswer = { s with input := { s.input with keyAnswer := a }, events := rest } := by
  simp [State.takeAnswer, h]

theorem State.takeAnswer_of_not_answer (h : ∀ a rest, s.events ≠ .answer a :: rest) :
    s.takeAnswer =
      { s with input := { s.input with keyAnswer := Config.keyAnswer s.draws }, draws := s.draws + 1 } := by
  unfold State.takeAnswer
  split
  case h_1 a rest he => exact absurd he (h a rest)
  case h_2 => rfl

/-- The poll of a new step sees the answers the step has taken (R120, R191). -/
theorem State.beginStep_kbd_of_new (h : s.waiting = false) :
    s.beginStep.kbd = s.kbd.poll keySampleMode s.beginStep.input.keysDown := by
  rw [State.beginStep_of_new h, State.poll_kbd, State.poll_input, State.takeInput_eq]

end

/-- Settles O7: phase 2 keeps the `PC` and the memory, every instruction answers a next state, and the report is read off it. -/
theorem stepRunsDecodedInstruction : Obligations.StepRunsDecodedInstruction := by
  unfold Obligations.StepRunsDecodedInstruction
  intro s i hn hr hpc hbytes
  have hd := (decodeBytes_eq_ok.mp hbytes).1
  have hfetch := s.beginStep_fetch?.trans (State.fetch?_eq_some hpc)
  obtain ⟨t, hexec, -⟩ := exec_effect i s.beginStep
  have hresult : stepResult s = resultAfter t := (stepResult_of_running hn hr).trans (runResult_of_ok hfetch hd hexec)
  refine ⟨(step_of_running hn hr).trans (fetchAndRun_of_ok hfetch hd), ⟨t, hexec, ?_, ?_, ?_, ?_⟩, s.beginStep_eq,
    State.beginStep_kbd_of_new, s.beginStep_kbd_of_waiting⟩
  · intro hfault
    rw [hresult, resultAfter, if_pos hfault]
  · intro hfault hhalt
    simp [hresult, resultAfter, hfault, hhalt]
  · intro hfault hhalt hwait
    simp [hresult, resultAfter, hfault, hhalt, hwait]
  · intro hfault hhalt hwait
    simp [hresult, resultAfter, hfault, hhalt, hwait]

/-- Settles O8: the form of the pending events decides what phase 2 takes. -/
theorem stepDrawsFreshInputs : Obligations.StepDrawsFreshInputs := by
  unfold Obligations.StepDrawsFreshInputs
  intro s hn hr
  refine ⟨step_of_running hn hr, fun hnew => ⟨?_, ?_, ?_⟩, fun hwait => ⟨?_, ?_⟩⟩
  · intro he
    rw [State.beginStep_of_new hnew, State.takeInput_of_nil he]
    exact ⟨rfl, rfl, he⟩
  · intro input rest he
    rw [State.beginStep_of_new hnew, State.takeInput_of_step he]
    exact ⟨rfl, rfl, rfl⟩
  · intro a rest he
    rw [State.beginStep_of_new hnew, State.takeInput_of_answer he]
    exact ⟨rfl, rfl, rfl⟩
  · intro a rest he
    rw [State.beginStep_of_waiting hwait, State.takeAnswer_of_answer he]
  · intro he
    rw [State.beginStep_of_waiting hwait, State.takeAnswer_of_not_answer he]

/-! ### A placed word is fetched (R66, R71) -/

/-- The high byte and the low byte of a word make the word. -/
theorem wordOfBytes_highByte_lowByte (op : Word) : wordOfBytes (highByte op) (lowByte op) = op := by
  have h := op.isLt
  apply BitVec.eq_of_toNat_eq
  refine (append_toNat (highByte op) (lowByte op)).trans ?_
  simp only [highByte, lowByte, BitVec.extractLsb'_toNat, Nat.shiftRight_eq_div_pow]
  omega

/-- Settles O14: the two bytes stored are read back at the `PC` and after it. -/
theorem storedWordIsFetched : Obligations.StoredWordIsFetched := by
  unfold Obligations.StoredWordIsFetched
  intro s op hwf hpc
  have hbyte : ∀ (k : Nat) (hk : k < (bytesOfWord op).length),
      (s.placeWord op).byteAt (s.pc.toNat + k) = (bytesOfWord op)[k] :=
    fun k hk => Memory.read_writeBytes_inside hwf (show s.pc.toNat + 2 ≤ 4096 by omega) k hk
  have hhigh : (s.placeWord op).byteAt s.pc.toNat = highByte op := hbyte 0 Nat.two_pos
  have hlow : (s.placeWord op).byteAt (s.pc.toNat + 1) = lowByte op := hbyte 1 Nat.one_lt_two
  rw [State.fetch?_eq_some (by simpa using hpc), State.placeWord_pc, hhigh, hlow, wordOfBytes_highByte_lowByte]

theorem decode_of_decodeTableWord {nbits w : Nat} {i : Instr} (h : decodeTableWord nbits w = some i) :
    decode (tableWord nbits w) = .ok i := by
  unfold decodeTableWord at h
  split at h
  case h_1 j rest hbytes =>
    cases h
    rw [← wordOfBytes_highByte_lowByte (tableWord nbits w)]
    exact (decodeBytes_eq_ok.mp hbytes).1
  case h_2 => cases h

/-- Settles O15: the state made ready to fetch runs, with no event pending, and fetches the word placed. -/
theorem placedInstructionRunsNext : Obligations.PlacedInstructionRunsNext := by
  unfold Obligations.PlacedInstructionRunsNext
  intro s w i hwf htable
  have hfetch : (s.withFetchWord 16 w).fetch? = some (tableWord 16 w) :=
    storedWordIsFetched s.readyToFetch _ hwf s.readyToFetch_pc_le
  have hn : (s.withFetchWord 16 w).nextHostEvent? = none := State.nextHostEvent?_of_nil rfl
  rw [step_of_running hn rfl]
  exact fetchAndRun_of_ok ((State.beginStep_fetch? _).trans hfetch) (decode_of_decodeTableWord htable)

end Sys2Proof.Machine
end

section
/-!
PROOFS. The events other than a step, and the state after `init` (spec/00_scope.md R8, spec/43_timers.md R180, spec/20_memory.md R73,
spec/70_reset_and_hazards.md R260).
-/

namespace Sys2Proof.Machine

/-! ### Ticks (R180) -/

theorem tickTimer_toNat (t : Byte) : (tickTimer t).toNat = t.toNat - 1 := by
  unfold tickTimer
  split
  case isTrue h => simp [h]
  case isFalse h =>
    have hpos : t.toNat ≠ 0 := fun e => h (BitVec.eq_of_toNat_eq e)
    have hlt := t.isLt
    rw [BitVec.toNat_sub]
    simp only [BitVec.ofNat_eq_ofNat, BitVec.toNat_ofNat]
    omega

/-- Settles O30, by induction on the number of ticks. -/
theorem ticksCountDownToZero : Obligations.TicksCountDownToZero := by
  unfold Obligations.TicksCountDownToZero
  intro s k
  induction k with
  | zero => exact ⟨rfl, rfl, rfl⟩
  | succ k ih =>
    obtain ⟨hdelay, hsound, hframe⟩ := ih
    rw [Function.iterate_succ_apply']
    refine ⟨?_, ?_, ?_⟩
    · rw [State.tickTimers_delay, tickTimer_toNat, hdelay, Nat.sub_sub]
    · rw [State.tickTimers_sound, tickTimer_toNat, hsound, Nat.sub_sub]
    · rw [hframe]
      rfl

/-! ### Load (R73) -/

/-- An image that fits is stored at 512 and above. -/
theorem State.load_of_le (s : State) {bytes : List Byte} (h : bytes.length ≤ 3584) : s.load bytes = s.storeBytes 512 bytes := by
  simp [State.load, wellFormedImage, h]

/-- An image that does not fit changes nothing. -/
theorem State.load_of_gt (s : State) {bytes : List Byte} (h : bytes.length > 3584) : s.load bytes = s := by
  simp [State.load, wellFormedImage, h]

/-- A load is a store of the whole image or no change. -/
theorem State.load_spec (s : State) (bytes : List Byte) : s.load bytes = s.storeBytes 512 bytes ∨ s.load bytes = s :=
  (Nat.lt_or_ge 3584 bytes.length).symm.imp s.load_of_le s.load_of_gt

/-- Settles O49: a block write inside the memory, or none. -/
theorem loadPlacesTheImage : Obligations.LoadPlacesTheImage := by
  unfold Obligations.LoadPlacesTheImage
  intro s bytes hwf
  refine ⟨fun hle => ?_, fun hgt => ⟨by simp [loadAnswer, wellFormedImage, hgt], s.load_of_gt hgt⟩⟩
  rw [s.load_of_le hle]
  refine ⟨by simp [loadAnswer, wellFormedImage, hle], ?_, ?_, rfl⟩
  · exact Memory.read_writeBytes_inside hwf (show 512 + bytes.length ≤ 4096 by omega)
  · exact fun b hb => Memory.read_writeBytes_outside bytes hb

/-! ### Pending events (R8) -/

/-- A pending event other than a step is the next transition. -/
theorem step_of_hostEvent {s : State} {e : HostEvent} {rest : List Event} (hw : s.waiting = false)
    (h : s.events = .host e :: rest) : step s = ({ s with events := rest } : State).hostEvent e := by
  simp only [step, State.nextHostEvent?_of_cons hw h]

/-- Settles O31: each event's own effect on the state without it. -/
theorem pendingEventsHappenNext : Obligations.PendingEventsHappenNext := by
  unfold Obligations.PendingEventsHappenNext
  intro s rest hw
  refine ⟨fun he => ?_, fun bytes he => ?_, fun he => step_of_hostEvent hw he, fun he => step_of_hostEvent hw he,
    fun he => step_of_hostEvent hw he⟩
  · exact ⟨_, step_of_hostEvent hw he, tickTimer_toNat s.delay, tickTimer_toNat s.sound, rfl⟩
  · rw [step_of_hostEvent hw he, State.hostEvent]
    rcases Nat.lt_or_ge 3584 bytes.length with h | h
    · rw [State.load_of_gt _ h, State.load_of_gt _ h]
    · rw [State.load_of_le _ h, State.load_of_le _ h]
      rfl

/-! ### The state after `init` (R35, R260) -/

/-- Settles O58: with no cell, no live stack entry, no lit pixel and no blocked step the invariants hold. -/
theorem resetMeetsInvariants : Obligations.ResetMeetsInvariants := by
  unfold Obligations.ResetMeetsInvariants
  intro p
  have hbounds : (State.resetWith p).InBounds :=
    ⟨Nat.zero_le _, show 512 ≤ 0x10FE by decide, fun k hk => absurd hk (Nat.not_lt_zero k.val)⟩
  exact ⟨State.resetWith_memory_wf p, hbounds, fun h => absurd h Bool.false_ne_true, rfl⟩

/-- Settles O59: the memory reads as the reset contents, every vector is a replicated value, and the rest stands in the reset state. -/
theorem resetValues : Obligations.ResetValues := by
  unfold Obligations.ResetValues
  refine ⟨fun p => ⟨fun a h => Memory.initial_font h, fun a h => Memory.initial_above h, rfl, rfl, ?_, rfl, rfl, rfl, rfl, ?_, rfl,
    rfl, ?_, ?_, rfl, rfl, rfl, rfl, ?_, fun q => rfl, rfl, rfl, rfl⟩, rfl⟩
  all_goals
    intro k
    exact Vector.getElem_replicate k.isLt

end Sys2Proof.Machine
end

section
/-!
PROOFS. The invariants (spec/10_state.md R36): every kind of transition keeps them, so every step does.
-/

namespace Sys2Proof.Machine

/-! ### One case analysis for all transitions -/

/-- A claim about a transition holds if it holds of a host event, of the idle step, of the two steps that run no instruction, and of
every effect of the instruction fetched after phase 2 (R8, R120). -/
theorem step_elim {P : Prop} {s t : State} (h : step s = .next t)
    (host : ∀ e rest, s.waiting = false → s.events = .host e :: rest →
      ({ s with events := rest } : State).hostEvent e = .next t → P)
    (idle : s.gated = true → t = s.dropEvent → P)
    (fetchFault : t = s.beginStep.raiseFetch → P)
    (decodeError : s.pc.toNat ≤ 4094 → t = s.beginStep.decodeErrorStep → P)
    (instruction : ∀ op i, s.gated = false → s.pc.toNat ≤ 4094 → s.fetch? = some op → decode op = .ok i →
      Effect s.beginStep i t → P) : P := by
  have hle : ∀ op, s.fetch? = some op → s.pc.toNat ≤ 4094 := by
    intro op hop
    rcases State.fetch?_spec s with ⟨-, hnone⟩ | ⟨hle, -⟩
    · cases hnone.symm.trans hop
    · exact hle
  rcases step_cases s h with ⟨e, u, hn, hout⟩ | ⟨-, hg, hout⟩ | ⟨-, -, -, hout⟩ | ⟨op, e, -, -, hf, -, hout⟩ |
    ⟨op, i, -, hg, hf, hd, hout⟩
  · obtain ⟨hw, rest, he, rfl⟩ := s.nextHostEvent?_eq_some hn
    exact host e rest hw he hout.symm
  · cases hout
    exact idle hg rfl
  · cases hout
    exact fetchFault rfl
  · cases hout
    exact decodeError (hle op (s.beginStep_fetch?.symm.trans hf)) rfl
  · have hf : s.fetch? = some op := s.beginStep_fetch?.symm.trans hf
    exact instruction op i hg (hle op hf) hf hd (effect_of_exec hout.symm)

/-- Everything an event other than a step can leave (R8). -/
theorem State.hostEvent_cases {s t : State} {e : HostEvent} (h : s.hostEvent e = .next t) :
    t = s.reinit ∨ (∃ bytes, t = s.storeBytes 512 bytes) ∨ t = s ∨ t = s.tickTimers ∨ t = s.ackDraw := by
  cases e with
  | init => cases h; exact .inl rfl
  | load bytes =>
    cases h
    rcases s.load_spec bytes with hload | hload
    · exact .inr (.inl ⟨bytes, hload⟩)
    · exact .inr (.inr (.inl hload))
  | tickTimers => cases h; exact .inr (.inr (.inr (.inl rfl)))
  | ackDraw => cases h; exact .inr (.inr (.inr (.inr rfl)))
  | deinit => cases h

/-! ### The memory's canonical form (R36, log entry 2) -/

theorem State.MemoryWf.storeBytes {s : State} (h : s.MemoryWf) (a : Nat) (bs : List Byte) : (s.storeBytes a bs).MemoryWf :=
  Memory.writeBytes_wf a bs h

theorem Effect.memoryWf {s t : State} {i : Instr} (h : Effect s i t) (hwf : s.MemoryWf) : t.MemoryWf := by
  cases h
  case stored x bs hi => exact hwf.storeBytes _ bs
  all_goals exact hwf

/-- Settles O55: the memory is written by block writes and by `init` alone, and both leave the canonical form. -/
theorem stepKeepsMemoryCanonical : Obligations.StepKeepsMemoryCanonical := by
  unfold Obligations.StepKeepsMemoryCanonical
  intro s t hwf hstep
  refine step_elim hstep ?host ?idle ?fetchFault ?decodeError ?instruction
  case host =>
    intro e rest _ _ hevent
    obtain rfl | ⟨bytes, rfl⟩ | rfl | rfl | rfl := State.hostEvent_cases hevent
    · exact State.resetWith_memory_wf s.params
    · exact Memory.writeBytes_wf _ bytes hwf
    all_goals exact hwf
  case idle =>
    rintro - rfl
    rw [State.dropEvent_eq]
    exact hwf
  case fetchFault =>
    rintro rfl
    rw [State.beginStep_eq]
    exact hwf
  case decodeError =>
    rintro - rfl
    rw [State.beginStep_eq]
    exact hwf
  case instruction =>
    intro op i _ _ _ _ heff
    exact heff.memoryWf (by simpa [State.MemoryWf] using hwf)

/-! ### The bounds of R36 -/

/-- The bounds speak of `I`, the `PC` and the live stack entries: with `I` and the stack kept, a `PC` in bounds is enough. -/
theorem State.InBounds.of_pc {s t : State} (h : s.InBounds) (hi : t.i = s.i) (hstack : t.stack = s.stack) (hsp : t.sp = s.sp)
    (hpc : t.pc.toNat ≤ 0x10FE) : t.InBounds := by
  obtain ⟨hbi, -, hbstack⟩ := h
  unfold State.InBounds
  rw [hi, hstack, hsp]
  exact ⟨hbi, hpc, hbstack⟩

/-- A return address is at most 4096: the `PC` of the call could be fetched from (R64, R163). -/
theorem pc_add_two_le {pc : Word} (h : pc.toNat ≤ 4094) : (pc + 2).toNat ≤ 4096 := by
  rw [BitVec.toNat_add, show (2 : Word).toNat = 2 from rfl]
  omega

/-- After a fetch the advance by 2, and the skip, stay in bounds (R64, R169). -/
theorem pc_add_le {pc : Word} (h : pc.toNat ≤ 4094) (c : Bool) : (pc + if c then 4 else 2).toNat ≤ 0x10FE := by
  have hk : (if c then 4 else 2 : Word).toNat ≤ 4 := by cases c <;> decide
  rw [BitVec.toNat_add]
  omega

/-- An instruction at a `PC` from which a word can be fetched keeps the bounds. -/
theorem Effect.inBounds {s t : State} {i : Instr} (h : Effect s i t) (hb : s.InBounds) (hpc : s.pc.toNat ≤ 4094) :
    t.InBounds := by
  have hnext : (s.pc + 2).toNat ≤ 0x10FE := pc_add_le hpc false
  have ⟨hbi, hbpc, hbstack⟩ := hb
  cases h
  case popped hsp =>
    have htop := hbstack ⟨s.sp.val - 1, by omega⟩ (show s.sp.val - 1 < s.sp.val by omega)
    refine ⟨hbi, htop.trans (by decide), fun k hk => hbstack k ?_⟩
    exact Nat.lt_of_lt_of_le hk (Nat.sub_le _ _)
  case pushed nnn hsp =>
    refine ⟨hbi, ?_, fun k hk => ?_⟩
    · have hn := nnn.isLt
      rw [zext16_nnn_toNat]
      omega
    · show (s.stack.set s.sp.val (s.pc + 2))[k.val].toNat ≤ 4096
      rw [Vector.getElem_set]
      split
      case isTrue => exact pc_add_two_le hpc
      case isFalse hne => exact hbstack k (Nat.lt_of_le_of_ne (Nat.le_of_lt_succ hk) (Ne.symm hne))
  case jumped target htarget => exact hb.of_pc rfl rfl rfl htarget
  case skipped c => exact hb.of_pc rfl rfl rfl (pc_add_le hpc c)
  case consumed x c hi => exact hb.of_pc rfl rfl rfl (pc_add_le hpc c)
  case indexed a ha hi => exact ⟨ha, hnext, hbstack⟩
  case quit | blocked | raised => exact hb.of_pc rfl rfl rfl hbpc
  all_goals exact hb.of_pc rfl rfl rfl hnext

/-- Settles O56: a new `I`, `PC` or stack entry is bounded by the fetch bound, by the width of an address, or by the stack entry it comes
from. -/
theorem stepKeepsBounds : Obligations.StepKeepsBounds := by
  unfold Obligations.StepKeepsBounds
  intro s t hb hstep
  have ⟨_, hpc, _⟩ := hb
  refine step_elim hstep ?host ?idle ?fetchFault ?decodeError ?instruction
  case host =>
    intro e rest _ _ hevent
    obtain rfl | ⟨bytes, rfl⟩ | rfl | rfl | rfl := State.hostEvent_cases hevent
    · obtain ⟨-, hreset, -⟩ := resetMeetsInvariants s.params
      exact hreset.of_pc rfl rfl rfl (show 512 ≤ 0x10FE by decide)
    all_goals exact hb.of_pc rfl rfl rfl hpc
  case idle =>
    rintro - rfl
    rw [State.dropEvent_eq]
    exact hb.of_pc rfl rfl rfl hpc
  case fetchFault =>
    rintro rfl
    rw [State.beginStep_eq]
    exact hb.of_pc rfl rfl rfl hpc
  case decodeError =>
    rintro hle rfl
    rw [State.beginStep_eq]
    exact hb.of_pc rfl rfl rfl (pc_add_le hle false)
  case instruction =>
    intro op i _ hle _ _ heff
    exact heff.inBounds (hb.of_pc (by simp) (by simp) (by simp) (by simpa using hpc)) (by simpa using hle)

/-! ### The wait state (R197) -/

/-- Only a `Fx0A` that finds the FIFO empty blocks, and it leaves everything as it was. -/
theorem Effect.blocked_of_waiting {s t : State} {i : Instr} (h : Effect s i t) (hs : s.waiting = false)
    (ht : t.waiting = true) : s.kbd.qCount.val = 0 ∧ (∃ x, i = .ldVxK x) ∧ t = { s with waiting := true } := by
  cases h
  case blocked x hq => exact ⟨hq, ⟨x, rfl⟩, rfl⟩
  all_goals exact absurd (hs.symm.trans ht) Bool.false_ne_true

/-- Settles O57: a transition that leaves a step blocked is a `Fx0A` that found the FIFO empty. -/
theorem stepKeepsWaitState : Obligations.StepKeepsWaitState := by
  unfold Obligations.StepKeepsWaitState
  intro s t hw hstep ht
  refine step_elim hstep ?host ?idle ?fetchFault ?decodeError ?instruction
  case host =>
    intro e rest hs _ hevent
    obtain rfl | ⟨bytes, rfl⟩ | rfl | rfl | rfl := State.hostEvent_cases hevent
    · cases ht
    all_goals exact absurd (hs.symm.trans ht) Bool.false_ne_true
  case idle =>
    rintro hg rfl
    rw [State.dropEvent_eq] at ht
    obtain ⟨hrun, -⟩ := hw ht
    exact absurd (hrun.symm.trans hg) Bool.false_ne_true
  case fetchFault =>
    rintro rfl
    exact absurd ((s.beginStep_waiting).symm.trans ht) Bool.false_ne_true
  case decodeError =>
    rintro - rfl
    exact absurd ((s.beginStep_waiting).symm.trans ht) Bool.false_ne_true
  case instruction =>
    intro op i hg _ hf hd heff
    obtain ⟨hq, ⟨x, rfl⟩, rfl⟩ := heff.blocked_of_waiting s.beginStep_waiting ht
    exact ⟨s.beginStep_gated.trans hg, Fin.ext hq, x, op, s.beginStep_fetch?.trans hf, hd⟩

/-- Settles O38: a blocked step resumes the same `Fx0A`, which finds the FIFO still empty. -/
theorem blockedStepKeepsState : Obligations.BlockedStepKeepsState := by
  unfold Obligations.BlockedStepKeepsState
  intro s t hw hs hstep
  obtain ⟨hg, hq, x, op, hf, hd⟩ := hw hs
  have hkbd := s.beginStep_kbd_of_waiting hs
  rw [step_of_running (State.nextHostEvent?_of_waiting hs) hg,
    fetchAndRun_of_ok (s.beginStep_fetch?.trans hf) hd, exec_ldVxK_of_zero x (by rw [hkbd, hq]; rfl)] at hstep
  cases hstep
  rcases ha : s.beginStep.input.keyAnswer with _ | ⟨key⟩ | _
  · rw [State.blockingRead_none x ha]
    refine ⟨hkbd, s.beginStep_delay, s.beginStep_sound, s.beginStep_memory, fun _ => ?_⟩
    rw [State.beginStep_eq]
    simp [hkbd, hs]
  · rw [State.blockingRead_key x ha]
    simp [hkbd]
  · rw [State.blockingRead_quit x ha]
    simp [hkbd]

/-! ### The parameters and the screen (R214, R260) -/

theorem Effect.params_eq {s t : State} {i : Instr} (h : Effect s i t) : t.params = s.params := by
  cases h <;> rfl

theorem Effect.display_wf {s t : State} {i : Instr} (h : Effect s i t) (hwf : Display.wf s.params s.display = true) :
    Display.wf s.params t.display = true := by
  cases h
  case cleared => rfl
  case drew x y n => exact Display.toggleAll_wf (s.spritePixels_onScreen _ _ _ _) _ hwf
  all_goals exact hwf

/-- Settles O60: `init` takes the parameters it finds, no other transition writes them, and the screen is written by toggles of pixels on
it, by the clear and by `init`. -/
theorem stepKeepsParametersAndScreen : Obligations.StepKeepsParametersAndScreen := by
  unfold Obligations.StepKeepsParametersAndScreen
  intro s t hstep
  suffices hboth : t.params = s.params ∧ (Display.wf s.params s.display = true → Display.wf s.params t.display = true) by
    rw [hboth.1]
    exact ⟨rfl, hboth.2⟩
  refine step_elim hstep ?host ?idle ?fetchFault ?decodeError ?instruction
  case host =>
    intro e rest _ _ hevent
    obtain rfl | ⟨bytes, rfl⟩ | rfl | rfl | rfl := State.hostEvent_cases hevent
    · exact ⟨rfl, fun _ => rfl⟩
    all_goals exact ⟨rfl, id⟩
  case idle =>
    rintro - rfl
    rw [State.dropEvent_eq]
    exact ⟨rfl, id⟩
  case fetchFault =>
    rintro rfl
    rw [State.beginStep_eq]
    exact ⟨rfl, id⟩
  case decodeError =>
    rintro - rfl
    rw [State.beginStep_eq]
    exact ⟨rfl, id⟩
  case instruction =>
    intro op i _ _ _ _ heff
    have hdisplay := heff.display_wf
    rw [State.beginStep_params, State.beginStep_display] at hdisplay
    exact ⟨heff.params_eq.trans s.beginStep_params, hdisplay⟩

end Sys2Proof.Machine
end

section
/-!
PROOFS. The flag functions of the ALU (spec/41_arithmetic.md R147 to R151): `8xy4` to `8xy7` and `8xyE`.
-/

namespace Sys2Proof.Machine

/-- An `8xyN` instruction of a function with a flag leaves the result in `V[x]` unless `x` is F, the flag in VF, and changes nothing
else but the `PC` (R153). -/
theorem exec_instr_of_flag_some (f : AluOp) {s : State} {x y : Reg} {r : Byte} {c : Bool}
    (h : alu f (s.getV x) (s.getV y) = (r, some c)) :
    ∃ t, exec (f.instr x y) s = .next t ∧ (x ≠ vf → t.getV x = r) ∧ t.getV vf = flagByte c ∧
      RegsKeptBut [x, vf] s t ∧ OnlyVAndPc s t ∧ t.pc = s.pc + 2 := by
  have hget := s.getV_aluStep f x y
  simp only [h] at hget
  refine ⟨_, exec_instr f s x y, fun hx => ?_, ?_, fun k hk => ?_, s.aluStep_frame f x y⟩
  · rw [hget, if_neg hx, if_pos rfl]
  · rw [hget, if_pos rfl]
  · obtain ⟨hkx, hkvf⟩ : k ≠ x ∧ k ≠ vf := by simpa using hk
    rw [hget, if_neg hkvf, if_neg hkx]

/-- The flag byte of a decided proposition. -/
theorem flagByte_decide (p : Prop) [Decidable p] : flagByte (decide p) = if p then 1 else 0 := by
  by_cases h : p <;> simp [h, flagByte]

/-- Settles O19: the ALU's sum and its carry. -/
theorem addSetsCarry : Obligations.AddSetsCarry := by
  unfold Obligations.AddSetsCarry
  intro s x y
  obtain ⟨t, hexec, hresult, hflag, hframe⟩ := exec_instr_of_flag_some .add (alu_add (s.getV x) (s.getV y))
  refine ⟨t, hexec, fun hx => ?_, hflag.trans (flagByte_decide _), hframe⟩
  rw [hresult hx, BitVec.toNat_add]

/-- Settles O20: the ALU's two differences and their no-borrow flags. -/
theorem subtractSetsNoBorrow : Obligations.SubtractSetsNoBorrow := by
  unfold Obligations.SubtractSetsNoBorrow
  intro s x y
  obtain ⟨t, hsub, hsubResult, hsubFlag, hsubFrame⟩ := exec_instr_of_flag_some .sub (alu_sub (s.getV x) (s.getV y))
  obtain ⟨u, hsubn, hsubnResult, hsubnFlag, hsubnFrame⟩ := exec_instr_of_flag_some .subn (alu_subn (s.getV x) (s.getV y))
  exact ⟨⟨t, hsub, hsubResult, hsubFlag.trans (flagByte_decide _), hsubFrame⟩,
    ⟨u, hsubn, hsubnResult, hsubnFlag.trans (flagByte_decide _), hsubnFrame⟩⟩

/-- A bit of a byte as a flag, as a number. -/
theorem flagByte_getElem_toNat (b : Byte) (k : Nat) (hk : k < 8) : (flagByte b[k]).toNat = b.toNat / 2 ^ k % 2 := by
  rw [BitVec.getElem_eq_testBit_toNat, Nat.testBit_eq_decide_div_mod_eq, flagByte_decide]
  rcases Nat.mod_two_eq_zero_or_one (b.toNat / 2 ^ k) with h | h <;> simp [h]

/-- Settles O21: the ALU's two shifts and the bits they shift out. -/
theorem shiftsReadVy : Obligations.ShiftsReadVy := by
  unfold Obligations.ShiftsReadVy
  intro s x y
  obtain ⟨t, hshr, hshrResult, hshrFlag, hshrFrame⟩ := exec_instr_of_flag_some .shr (alu_shr (s.getV x) (s.getV y))
  obtain ⟨u, hshl, hshlResult, hshlFlag, hshlFrame⟩ := exec_instr_of_flag_some .shl (alu_shl (s.getV x) (s.getV y))
  refine ⟨⟨t, hshr, fun hx => ?_, ?_, hshrFrame⟩, ⟨u, hshl, fun hx => ?_, ?_, hshlFrame⟩⟩
  · rw [hshrResult hx, BitVec.toNat_ushiftRight, Nat.shiftRight_eq_div_pow, pow_one]
  · rw [hshrFlag, flagByte_getElem_toNat, pow_zero, Nat.div_one]
  · rw [hshlResult hx, BitVec.toNat_shiftLeft, Nat.shiftLeft_eq, pow_one, Nat.mul_comm]
  · have hlt := (s.getV y).isLt
    rw [hshlFlag, flagByte_getElem_toNat]
    omega

end Sys2Proof.Machine
end

section
/-!
PROOFS. The return stack (spec/42_control_flow.md R161, R163, R171; spec/60_exceptions.md R232, R233).
-/

namespace Sys2Proof.Machine

/-- Settles O27: both faults are raised before anything is written. -/
theorem stackFaults : Obligations.StackFaults := by
  unfold Obligations.StackFaults
  exact ⟨fun s nnn h => exec_call_of_full nnn (congrArg Fin.val h), fun s h => exec_ret_of_zero (congrArg Fin.val h)⟩

/-- Settles O26: the slot pushed reads back, and no other slot changes. -/
theorem callPushesReturnPops : Obligations.CallPushesReturnPops := by
  unfold Obligations.CallPushesReturnPops
  refine ⟨fun s nnn h => ⟨_, exec_call_of_lt nnn h, rfl, ?_, fun k hk => ?_, zext16_nnn_toNat nnn, rfl⟩,
    fun s h => ⟨_, exec_ret_of_pos h, rfl, rfl, rfl⟩⟩
  · exact Vector.getElem_set_self h
  · exact Vector.getElem_set_ne h k.isLt (Ne.symm hk)

/-! ### Runs of instructions -/

theorem execAll_cons {i : Instr} {is : List Instr} {s t : State} (h : exec i s = .next t) :
    execAll (i :: is) s = execAll is t := by
  simp only [execAll, h]

theorem execAll_append {is js : List Instr} {s t : State} (h : execAll is s = .next t) :
    execAll (is ++ js) s = execAll js t := by
  induction is generalizing s with
  | nil => cases h; rfl
  | cons i is ih =>
    obtain ⟨u, hu, -⟩ := exec_effect i s
    rw [execAll_cons hu] at h
    rw [List.cons_append, execAll_cons hu]
    exact ih h

/-- Calls that fit, and as many returns: by induction on the calls, the first call's slot is live during the others and is what the last
return pops. -/
theorem execAll_calls_returns (targets : List (BitVec 12)) (s : State) (hfit : s.sp.val + targets.length ≤ 16) :
    ∃ t, execAll (targets.map Instr.call) s = .next t ∧ t.sp.val = s.sp.val + targets.length ∧
      ∃ u, execAll (List.replicate targets.length Instr.ret) t = .next u ∧ u.sp = s.sp ∧
        u.pc = (if targets = [] then s.pc else s.pc + 2) ∧
        (∀ k : Fin 16, k.val < s.sp.val → u.stack[k.val] = s.stack[k.val]) ∧
        u = { s with stack := u.stack, pc := u.pc } := by
  induction targets generalizing s with
  | nil => exact ⟨s, rfl, rfl, s, rfl, rfl, rfl, fun _ _ => rfl, rfl⟩
  | cons nnn rest ih =>
    obtain ⟨hcall, hreturn⟩ := callPushesReturnPops
    rw [List.length_cons] at hfit
    obtain ⟨c, hc, hcsp, hslot, hothers, -, hcframe⟩ := hcall s nnn (by omega)
    obtain ⟨t, ht, htsp, u, hu, husp, -, hlive, huframe⟩ := ih c (by omega)
    have husp : u.sp.val = s.sp.val + 1 := by rw [husp, hcsp]
    obtain ⟨w, hw, hwsp, hwpc, hwframe⟩ := hreturn u (by omega)
    have hwsp : w.sp = s.sp := Fin.ext (by omega)
    have hwstack : w.stack = u.stack := by rw [hwframe]
    have hpc : w.pc = s.pc + 2 := by
      have htop := hlive ⟨s.sp.val, by omega⟩ (show s.sp.val < c.sp.val by omega)
      simp only [husp] at hwpc
      exact hwpc.trans (htop.trans hslot)
    refine ⟨t, (execAll_cons hc).trans ht, ?_, w, ?_, hwsp, ?_, fun k hk => ?_, ?_⟩
    · rw [htsp, hcsp, List.length_cons]
      omega
    · rw [List.length_cons, List.replicate_succ', execAll_append hu, execAll_cons hw, execAll]
    · rw [hpc, if_neg (List.cons_ne_nil _ _)]
    · rw [hwstack, hlive k (by omega), hothers k (by omega)]
    · calc w = { u with sp := w.sp, pc := w.pc } := hwframe
        _ = { ({ c with stack := u.stack, pc := u.pc } : State) with sp := w.sp, pc := w.pc } := by rw [← huframe]
        _ = { s with stack := u.stack, sp := w.sp, pc := w.pc } := by rw [hcframe]
        _ = { s with stack := w.stack, pc := w.pc } := by rw [hwsp, hwstack]

/-- Settles O28: the calls and returns nest, and a call on the filled stack overflows. -/
theorem stackDiscipline : Obligations.StackDiscipline := by
  unfold Obligations.StackDiscipline
  intro s targets hfit
  obtain ⟨t, ht, htsp, hreturns⟩ := execAll_calls_returns targets s hfit
  exact ⟨t, ht, htsp, fun hfull nnn => ⟨_, exec_call_of_full nnn (htsp.trans hfull), rfl⟩, hreturns⟩

end Sys2Proof.Machine
end

section
/-!
PROOFS. The keyboard block (spec/44_keyboard.md R190 to R202): the FIFO as a list, the poll key by key, and the three instructions.
-/

namespace Sys2Proof.Machine

/-! ### The FIFO as a list (R29, R192, R193) -/

section
variable (k : Keyboard)

theorem Keyboard.entries_length : k.entries.length = k.qCount.val := by
  simp [Keyboard.entries]

/-- Two slots less than 16 apart differ. -/
theorem Keyboard.slot_ne {m n : Nat} (h : m < n) (hn : n < m + 16) : (k.slot m).val ≠ (k.slot n).val := by
  simp only [Keyboard.slot]
  omega

/-- With room, the new event is the last entry. -/
theorem Keyboard.entries_enqueue_of_lt (key : Key) (h : k.qCount.val < 16) : (k.enqueue key).entries = k.entries ++ [key] := by
  have henq : k.enqueue key = { k with q := k.q.set (k.slot k.qCount.val).val key, qCount := ⟨k.qCount.val + 1, by omega⟩ } := by
    simp [Keyboard.enqueue, h]
  have hkept : ∀ n ∈ List.range k.qCount.val,
      (k.q.set (k.slot k.qCount.val).val key)[(k.slot n).val] = k.q[(k.slot n).val] := by
    intro n hn
    have hn := List.mem_range.mp hn
    exact Vector.getElem_set_ne _ _ (k.slot_ne hn (by omega)).symm
  rw [henq]
  simp only [Keyboard.entries, List.range_succ, List.map_append, List.map_cons, List.map_nil]
  refine congrArg₂ _ (List.map_congr_left hkept) (congrArg (· :: []) ?_)
  exact Vector.getElem_set_self _

/-- A full FIFO drops the new event. -/
theorem Keyboard.enqueue_of_full (key : Key) (h : k.qCount.val = 16) : k.enqueue key = k := by
  simp [Keyboard.enqueue, h]

/-- The entries are never more than 16. -/
theorem Keyboard.take_entries_append_nil : (k.entries ++ []).take 16 = k.entries := by
  rw [List.append_nil, List.take_of_length_le]
  rw [k.entries_length]
  omega

/-- In one line: the new event is the last entry, unless 16 are queued. -/
theorem Keyboard.entries_enqueue (key : Key) : (k.enqueue key).entries = (k.entries ++ [key]).take 16 := by
  have hlen := k.entries_length
  rcases Nat.lt_or_ge k.qCount.val 16 with h | h
  · rw [k.entries_enqueue_of_lt key h, List.take_of_length_le]
    simp only [List.length_append, List.length_singleton]
    omega
  · have hfull : k.qCount.val = 16 := by omega
    rw [k.enqueue_of_full key hfull, List.take_left' (hlen.trans hfull)]

@[simp] theorem Keyboard.enqueue_keyState (key : Key) : (k.enqueue key).keyState = k.keyState := by
  unfold Keyboard.enqueue
  split <;> rfl

@[simp] theorem Keyboard.enqueue_keyPrev (key : Key) : (k.enqueue key).keyPrev = k.keyPrev := by
  unfold Keyboard.enqueue
  split <;> rfl

/-- The head of the entries is what `dequeue` answers, their tail what it leaves. -/
theorem Keyboard.entries_eq_cons (h : 0 < k.qCount.val) : k.entries = k.dequeue.1 :: k.dequeue.2.entries := by
  obtain ⟨n, hn⟩ : ∃ n, k.qCount.val = n + 1 := ⟨k.qCount.val - 1, by omega⟩
  have hhead : (k.slot 0).val = k.qHead.val := by
    simp only [Keyboard.slot]
    omega
  have hslot : ∀ m, (k.dequeue.2.slot m).val = (k.slot (m + 1)).val := by
    intro m
    simp only [Keyboard.dequeue, Keyboard.slot]
    omega
  have hcount : k.dequeue.2.qCount.val = n := show k.qCount.val - 1 = n by omega
  simp only [Keyboard.entries, hn, hcount, hslot, hhead, List.range_succ_eq_map, List.map_cons, List.map_map]
  rfl

end

/-- Settles O32: the entries after each operation. -/
theorem fifoIsBoundedQueue : Obligations.FifoIsBoundedQueue := by
  unfold Obligations.FifoIsBoundedQueue
  exact fun k key => ⟨k.entries_enqueue_of_lt key, fun h => by rw [k.enqueue_of_full key h], k.enqueue_keyState key,
    k.enqueue_keyPrev key, k.entries_eq_cons, rfl, rfl, k.entries_length⟩

/-! ### The poll (R191) -/

/-- The key was up at the last poll and is down now (R191). -/
def Keyboard.wentDown (k : Keyboard) (down : Vector Bool 16) (key : Key) : Bool := down[key.val] && !k.keyPrev[key.val]

/-- The keys that went down between two polls, by `wentDown`. -/
theorem Keyboard.edges_eq_filter (k : Keyboard) (down : Vector Bool 16) :
    k.edges down = (List.finRange 16).filter (k.wentDown down) := rfl

section
variable (k : Keyboard) (down : Vector Bool 16) (key : Key)

theorem Keyboard.pollKey_of_wentDown (h : k.wentDown down key = true) :
    k.pollKey .edge down key =
      { (k.setLatch key true).enqueue key with keyPrev := k.keyPrev.set key.val down[key.val] } := by
  simp only [Keyboard.wentDown] at h
  simp [Keyboard.pollKey, h, Keyboard.setLatch]

theorem Keyboard.pollKey_of_not_wentDown (h : k.wentDown down key = false) :
    k.pollKey .edge down key = { k with keyPrev := k.keyPrev.set key.val down[key.val] } := by
  simp only [Keyboard.wentDown] at h
  simp [Keyboard.pollKey, h]

theorem Keyboard.pollKey_keyPrev : (k.pollKey .edge down key).keyPrev = k.keyPrev.set key.val down[key.val] := by
  cases h : k.wentDown down key
  · rw [k.pollKey_of_not_wentDown down key h]
  · rw [k.pollKey_of_wentDown down key h]

theorem Keyboard.pollKey_latched (other : Key) :
    (k.pollKey .edge down key).latched other = (k.latched other || (decide (other = key) && k.wentDown down key)) := by
  cases h : k.wentDown down key
  · rw [k.pollKey_of_not_wentDown down key h]
    simp [Keyboard.latched]
  · rw [k.pollKey_of_wentDown down key h]
    have hlatch := k.latched_setLatch key other true
    simp only [Keyboard.latched, Keyboard.enqueue_keyState] at hlatch ⊢
    rw [hlatch]
    by_cases hother : other = key <;> simp [hother]

theorem Keyboard.pollKey_entries :
    (k.pollKey .edge down key).entries = (k.entries ++ [key].filter (k.wentDown down)).take 16 := by
  cases h : k.wentDown down key
  · rw [k.pollKey_of_not_wentDown down key h, List.filter_singleton, h]
    exact k.take_entries_append_nil.symm
  · rw [k.pollKey_of_wentDown down key h, List.filter_singleton, h]
    exact (k.setLatch key true).entries_enqueue key

/-- A key polled later went down if and only if it had gone down before this key was polled. -/
theorem Keyboard.pollKey_wentDown {other : Key} (h : other ≠ key) :
    (k.pollKey .edge down key).wentDown down other = k.wentDown down other := by
  have hne : key.val ≠ other.val := fun e => h (Fin.ext e.symm)
  simp [Keyboard.wentDown, k.pollKey_keyPrev, Vector.getElem_set_ne, hne]

end

/-- Cutting a list before something is appended makes no difference to a cut at the same length after. -/
theorem take_append_of_take {α : Type} (n : Nat) (as bs : List α) : (as.take n ++ bs).take n = (as ++ bs).take n := by
  simp only [List.take_append, List.take_take, List.length_take, Nat.min_self]
  congr 2
  omega

section
variable (down : Vector Bool 16)

/-- After polling some keys, each once, those that went down are queued in their order as far as there is room. -/
theorem Keyboard.foldl_pollKey_entries (keys : List Key) (hnodup : keys.Nodup) (k : Keyboard) :
    (keys.foldl (Keyboard.pollKey .edge down) k).entries = (k.entries ++ keys.filter (k.wentDown down)).take 16 := by
  induction keys generalizing k with
  | nil => exact k.take_entries_append_nil.symm
  | cons key rest ih =>
    obtain ⟨hnew, hrest⟩ := List.nodup_cons.mp hnodup
    have hsame : rest.filter ((k.pollKey .edge down key).wentDown down) = rest.filter (k.wentDown down) :=
      List.filter_congr fun other hmem => k.pollKey_wentDown down key (ne_of_mem_of_not_mem hmem hnew)
    rw [List.foldl_cons, ih hrest, hsame, k.pollKey_entries, take_append_of_take, List.append_assoc, ← List.filter_append,
      List.singleton_append]

/-- After polling some keys, each once, those that went down are latched and no latch is cleared. -/
theorem Keyboard.foldl_pollKey_latched (keys : List Key) (hnodup : keys.Nodup) (k : Keyboard) (other : Key) :
    (keys.foldl (Keyboard.pollKey .edge down) k).latched other =
      (k.latched other || (decide (other ∈ keys) && k.wentDown down other)) := by
  induction keys generalizing k with
  | nil => simp
  | cons key rest ih =>
    obtain ⟨hnew, hrest⟩ := List.nodup_cons.mp hnodup
    rw [List.foldl_cons, ih hrest, k.pollKey_latched]
    by_cases hother : other = key
    · simp [hother, hnew]
    · simp [hother, k.pollKey_wentDown down key hother]

/-- After polling some keys, each once, their samples are remembered. -/
theorem Keyboard.foldl_pollKey_keyPrev (keys : List Key) (k : Keyboard) (other : Key) :
    (keys.foldl (Keyboard.pollKey .edge down) k).keyPrev[other.val] =
      if other ∈ keys then down[other.val] else k.keyPrev[other.val] := by
  induction keys generalizing k with
  | nil => simp
  | cons key rest ih =>
    rw [List.foldl_cons, ih, k.pollKey_keyPrev]
    by_cases hother : other = key
    · simp [hother]
    · have hne : key.val ≠ other.val := fun e => hother (Fin.ext e.symm)
      simp [hother, Vector.getElem_set_ne, hne]

end

/-- Settles O33: every key is polled once. -/
theorem pollLatchesEdges : Obligations.PollLatchesEdges := by
  unfold Obligations.PollLatchesEdges
  intro k down key
  refine ⟨?_, Vector.ext fun n hn => ?_⟩
  · refine (Keyboard.foldl_pollKey_latched down _ (List.nodup_finRange 16) k key).trans ?_
    simp [Keyboard.wentDown]
  · exact (Keyboard.foldl_pollKey_keyPrev down _ k ⟨n, hn⟩).trans (if_pos (List.mem_finRange _))

/-- Settles O34: every key is polled once, in ascending order. -/
theorem pollQueuesEdges : Obligations.PollQueuesEdges := by
  unfold Obligations.PollQueuesEdges
  intro k down
  rw [k.edges_eq_filter down]
  exact Keyboard.foldl_pollKey_entries down _ (List.nodup_finRange 16) k

/-! ### The key instructions -/

/-- A key as the byte that goes to `V[x]` keeps its number (R196, R198). -/
theorem keyByte_toNat (key : Key) : (BitVec.ofNat 8 key.val).toNat = key.val := by
  rw [BitVec.toNat_ofNat]
  omega

/-- Settles O35: both skips clear the same latch, and skip on opposite conditions. -/
theorem keySkipsConsumeTheLatch : Obligations.KeySkipsConsumeTheLatch := by
  unfold Obligations.KeySkipsConsumeTheLatch
  intro s x
  refine ⟨_, _, exec_skp s x, exec_sknp s x, rfl, ?_, lowNibble_val _,
    fun key => s.kbd.latched_setLatch _ key false, rfl, rfl, rfl⟩
  cases s.kbd.latched (lowNibble (s.getV x)) <;> rfl

/-- Settles O36: the FIFO holds an event, and the oldest entry is the one dequeued. -/
theorem keyWaitTakesOldestEvent : Obligations.KeyWaitTakesOldestEvent := by
  unfold Obligations.KeyWaitTakesOldestEvent
  intro s x key rest hentries
  have hlen := s.kbd.entries_length
  rw [hentries, List.length_cons] at hlen
  have hpos : 0 < s.kbd.qCount.val := by omega
  have hcons := hentries.symm.trans (s.kbd.entries_eq_cons hpos)
  obtain ⟨rfl, rfl⟩ := List.cons.inj hcons
  obtain ⟨hvalue, hkept, hframe, hpc⟩ := ({ s with kbd := s.kbd.dequeue.2 } : State).setV_advanceNext_spec x
    (BitVec.ofNat 8 s.kbd.dequeue.1.val)
  refine ⟨_, exec_ldVxK_of_pos x hpos, ?_, hkept, rfl, rfl, rfl, hpc, hframe⟩
  rw [hvalue, keyByte_toNat]

/-- Settles O37: the three answers of the blocking read. -/
theorem keyWaitBlocks : Obligations.KeyWaitBlocks := by
  unfold Obligations.KeyWaitBlocks
  intro s x hnil
  have hzero : s.kbd.qCount.val = 0 := by rw [← s.kbd.entries_length, hnil, List.length_nil]
  have hexec := exec_ldVxK_of_zero x hzero
  refine ⟨fun key ha => ?_, fun ha => ?_, fun ha => ?_⟩
  · obtain ⟨hvalue, hframe⟩ := s.setV_advanceNext_spec x (BitVec.ofNat 8 key.val)
    refine ⟨_, hexec.trans (congrArg _ (State.blockingRead_key x ha)), ?_, hframe⟩
    rw [hvalue, keyByte_toNat]
  · refine ⟨_, hexec.trans (congrArg _ (State.blockingRead_quit x ha)), rfl, fun r hr => ?_, rfl⟩
    exact State.getV_setV_ne s s.input.quitByte (fun e => hr (List.mem_singleton.mpr e))
  · exact hexec.trans (congrArg _ (State.blockingRead_none x ha))

end Sys2Proof.Machine
end

section
/-!
PROOFS. The memory instructions and the sprite (spec/45_sprite_memory.md R211 to R219): the checked range, the blocks stored and loaded,
and the pixels a sprite toggles, counted.
-/

namespace Sys2Proof.Machine

/-- Settles O41: a bit of an AND is 0 where the mask's is. -/
theorem randomIsMasked : Obligations.RandomIsMasked := by
  unfold Obligations.RandomIsMasked
  intro s x kk
  obtain ⟨hvalue, hframe⟩ := s.setV_advanceNext_spec x (s.input.randomByte &&& kk)
  refine ⟨_, exec_rnd s x kk, hvalue, fun b hb => ?_, hframe⟩
  rw [hvalue, BitVec.getLsbD_and, hb, Bool.and_false]

/-- Settles O43: a glyph is 5 bytes long. -/
theorem fontAddress : Obligations.FontAddress := by
  unfold Obligations.FontAddress
  exact fun s x => ⟨_, exec_ldF s x, glyphAddress_toNat (s.getV x), rfl, rfl⟩

/-! ### The checked range (R219) -/

section
variable {s body : State} {i : Instr} {count : Nat}

theorem State.accessing_of_inRange (h : count = 0 ∨ s.i.toNat + count ≤ 4096) : s.accessing i count body = body := by
  rcases State.accessing_spec s i count body with ⟨-, heq⟩ | ⟨hpos, hgt, -⟩
  · exact heq
  · omega

theorem State.accessing_of_outOfRange (hpos : 0 < count) (h : s.i.toNat + count > 4096) :
    s.accessing i count body = s.faulted .dataAddressFault (encode i) (BitVec.ofNat 17 (max s.i.toNat 4096)) := by
  rcases State.accessing_spec s i count body with ⟨hin, -⟩ | ⟨-, -, heq⟩
  · omega
  · exact heq

end

/-- Settles O48: each instruction's range, out of the memory. -/
theorem dataPastMemoryFaults : Obligations.DataPastMemoryFaults := by
  unfold Obligations.DataPastMemoryFaults
  intro s x y n
  refine ⟨fun hn h => ?_, fun h => ?_, fun h => ?_, fun h => ?_⟩
  · have hpos : 0 < n.toNat := Nat.pos_of_ne_zero fun hz => hn (BitVec.eq_of_toNat_eq hz)
    rw [exec_drw, State.accessing_of_outOfRange hpos (by omega)]
  · rw [exec_ldB, State.accessing_of_outOfRange (by decide) (by omega)]
  · rw [exec_storeRegs, State.accessing_of_outOfRange (Nat.succ_pos _) (by omega)]
  · rw [exec_loadRegs, State.accessing_of_outOfRange (Nat.succ_pos _) (by omega)]

/-! ### Blocks (R216 to R218) -/

/-- What a store inside the memory does: the block reads back, every other byte is kept (R63, R67). -/
theorem State.storeBytes_spec {s : State} {a : Nat} {bs : List Byte} (hwf : s.MemoryWf) (h : a + bs.length ≤ 4096) :
    (∀ (k : Nat) (hk : k < bs.length), (s.storeBytes a bs).advanceNext.byteAt (a + k) = bs[k]) ∧
    BytesKeptOutside a bs.length s (s.storeBytes a bs).advanceNext ∧
    OnlyMemoryAndPc s (s.storeBytes a bs).advanceNext ∧ (s.storeBytes a bs).advanceNext.pc = s.pc + 2 :=
  ⟨Memory.read_writeBytes_inside hwf h, fun _ hb => Memory.read_writeBytes_outside bs hb, rfl, rfl⟩

/-- The digits make the byte, and the lower two are digits (R216). -/
theorem bcdDigits_spec (b : Byte) :
    100 * (trunc8 (b.toNat / 100)).toNat + 10 * (trunc8 (b.toNat / 10 % 10)).toNat + (trunc8 (b.toNat % 10)).toNat = b.toNat ∧
    (trunc8 (b.toNat / 10 % 10)).toNat ≤ 9 ∧ (trunc8 (b.toNat % 10)).toNat ≤ 9 := by
  have hlt := b.isLt
  simp only [BitVec.toNat_ofNat]
  omega

/-- Settles O44: the three digits are stored and read back. -/
theorem bcdDigitsStored : Obligations.BcdDigitsStored := by
  unfold Obligations.BcdDigitsStored
  intro s x hwf hrange
  obtain ⟨hbytes, hframe⟩ := State.storeBytes_spec (bs := bcdDigits (s.getV x)) hwf (show s.i.toNat + 3 ≤ 4096 by omega)
  have hhundreds := hbytes 0 (show 0 < 3 by decide)
  have htens := hbytes 1 (show 1 < 3 by decide)
  have hunits := hbytes 2 (show 2 < 3 by decide)
  obtain ⟨hsum, htensLe, hunitsLe⟩ := bcdDigits_spec (s.getV x)
  refine ⟨_, (exec_ldB s x).trans (congrArg _ (State.accessing_of_inRange (.inr (by omega)))), ?_, ?_, ?_, hframe⟩
  · rw [Nat.add_zero] at hhundreds
    rw [hhundreds, htens, hunits]
    exact hsum
  · rw [htens]
    exact htensLe
  · rw [hunits]
    exact hunitsLe

/-- Settles O45: the block of registers is stored and read back. -/
theorem registersStored : Obligations.RegistersStored := by
  unfold Obligations.RegistersStored
  intro s x hwf hrange
  have hlen := s.regBlock_length x
  obtain ⟨hbytes, hkept, hframe⟩ := State.storeBytes_spec (bs := s.regBlock x) hwf (show s.i.toNat + _ ≤ 4096 by omega)
  rw [hlen] at hkept
  refine ⟨_, (exec_storeRegs s x).trans (congrArg _ (State.accessing_of_inRange (.inr (by omega)))), fun k hk => ?_, hkept,
    hframe⟩
  have hk : k.val < (s.regBlock x).length := hlen ▸ Nat.lt_succ_of_le hk
  exact (hbytes k.val hk).trans (s.regBlock_getElem x k hk)

/-- Settles O46: the registers of the block are loaded and no other. -/
theorem registersLoaded : Obligations.RegistersLoaded := by
  unfold Obligations.RegistersLoaded
  intro s x hrange
  refine ⟨_, (exec_loadRegs s x).trans (congrArg _ (State.accessing_of_inRange (.inr (by omega)))), fun k hk => ?_,
    fun k hk => ?_, rfl, rfl⟩
  · rw [State.getV_loaded, if_pos hk]
  · rw [State.getV_loaded, if_neg (not_le.mpr hk)]

/-- Settles O47: the store leaves `I`, and the load reads the bytes stored. -/
theorem storeThenLoadRestoresRegisters : Obligations.StoreThenLoadRestoresRegisters := by
  unfold Obligations.StoreThenLoadRestoresRegisters
  intro s x v hwf hrange
  obtain ⟨t, hstore, hbytes, -, hframe, -⟩ := registersStored s x hwf hrange
  have hi : t.i = s.i := by rw [hframe]
  obtain ⟨u, hload, hregs, -⟩ := registersLoaded { t with v := v } x (by rw [hi]; exact hrange)
  refine ⟨t, u, hstore, hload, fun k hk => (hregs k hk).trans ?_⟩
  rw [hi]
  exact hbytes k hk

/-! ### The sprite's pixels, counted (R212) -/

section
variable (s : State) (x y : Reg)

/-- The column `c` of the sprite's row `r`: the pixel it toggles, if its bit is set (R212). -/
def State.spriteColumn (r c : Nat) : Option Pixel :=
  if (s.byteAt (s.i.toNat + r)).getLsbD (7 - c) then
    some (wrapPixel s.params ((s.getV y).toNat % s.params.screenH + r) ((s.getV x).toNat % s.params.screenW + c))
  else none

/-- The sprite's pixels, column by column. -/
theorem State.spritePixels_eq (n : Nat) :
    s.spritePixels s.i.toNat n (s.getV x) (s.getV y) =
      (List.range n).flatMap (fun r => (List.range 8).filterMap (s.spriteColumn x y r)) := rfl

theorem State.spriteBit_iff (r c : Nat) (p : Pixel) :
    s.spriteBit x y r c p = true ↔ (s.byteAt (s.i.toNat + r)).getLsbD (7 - c) = true ∧
      p.row = ((s.getV y).toNat % s.params.screenH + r) % s.params.screenH ∧
      p.col = ((s.getV x).toNat % s.params.screenW + c) % s.params.screenW := by
  rw [State.spriteBit, Bool.and_eq_true, decide_eq_true_eq]

/-- A column toggles a pixel if and only if its bit is set and names the pixel. -/
theorem State.spriteColumn_eq_some (r c : Nat) (p : Pixel) :
    s.spriteColumn x y r c = some p ↔ s.spriteBit x y r c p = true := by
  obtain ⟨row, col⟩ := p
  rw [State.spriteBit_iff, State.spriteColumn]
  split
  case isTrue hbit =>
    simp only [hbit, true_and, Option.some.injEq, wrapPixel, Pixel.mk.injEq]
    exact and_congr eq_comm eq_comm
  case isFalse hbit => simp [hbit]

/-- A pixel stands in the list of toggles as often as set bits of the sprite name it. -/
theorem State.count_spritePixels (n : Nat) (p : Pixel) :
    (s.spritePixels s.i.toNat n (s.getV x) (s.getV y)).count p = s.spriteHits x y n p := by
  rw [State.spritePixels_eq, List.count_flatMap, State.spriteHits]
  refine congrArg List.sum (List.map_congr_left fun r _ => ?_)
  rw [Function.comp_apply, List.count_filterMap]
  refine List.countP_congr fun c _ => ?_
  rw [beq_iff_eq, State.spriteColumn_eq_some]

/-- A pixel is named by some set bit if and only if it is under one. -/
theorem State.spriteHits_pos_iff (n : Nat) (p : Pixel) : 0 < s.spriteHits x y n p ↔ s.InSprite x y n p := by
  rw [← State.count_spritePixels, List.count_pos_iff, State.spritePixels_eq]
  simp only [List.mem_flatMap, List.mem_filterMap, List.mem_range, State.spriteColumn_eq_some, State.InSprite]
  constructor
  · rintro ⟨r, hr, c, hc, hbit⟩
    exact ⟨r, c, hr, hc, hbit⟩
  · rintro ⟨r, c, hr, hc, hbit⟩
    exact ⟨r, hr, c, hc, hbit⟩

end

/-- Two offsets below the modulus that wrap to one value are one. -/
theorem eq_of_add_mod_eq {v a b m : Nat} (h : (v + a) % m = (v + b) % m) (ha : a < m) (hb : b < m) : a = b :=
  (Nat.ModEq.add_left_cancel' v h).eq_of_lt_of_lt ha hb

/-- On a screen at least 8 wide and `n` high no pixel is named twice: two rows differ in the row they toggle, two columns of a row in
the column. -/
theorem State.spriteHits_le_one {s : State} (x y : Reg) {n : Nat} (p : Pixel) (hw : 8 ≤ (s.params.screenW : Nat))
    (hh : n ≤ (s.params.screenH : Nat)) : s.spriteHits x y n p ≤ 1 := by
  rw [← State.count_spritePixels, State.spritePixels_eq]
  refine List.nodup_iff_count_le_one.mp (List.nodup_flatMap.mpr ⟨fun r _ => ?columns, ?rows⟩) p
  case columns =>
    refine List.pairwise_filterMap.mpr (List.nodup_range.imp_of_mem ?_)
    rintro c d hc hd hne q hq q' hq' rfl
    obtain ⟨-, -, hcol⟩ := (s.spriteBit_iff x y r c q).mp ((s.spriteColumn_eq_some x y r c q).mp hq)
    obtain ⟨-, -, hcol'⟩ := (s.spriteBit_iff x y r d q).mp ((s.spriteColumn_eq_some x y r d q).mp hq')
    exact hne (eq_of_add_mod_eq (hcol.symm.trans hcol') ((List.mem_range.mp hc).trans_le hw)
      ((List.mem_range.mp hd).trans_le hw))
  case rows =>
    refine List.nodup_range.imp_of_mem ?_
    intro r r' hr hr' hne q hq hq'
    obtain ⟨c, -, hc⟩ := List.mem_filterMap.mp hq
    obtain ⟨d, -, hd⟩ := List.mem_filterMap.mp hq'
    obtain ⟨-, hrow, -⟩ := (s.spriteBit_iff x y r c q).mp ((s.spriteColumn_eq_some x y r c q).mp hc)
    obtain ⟨-, hrow', -⟩ := (s.spriteBit_iff x y r' d q).mp ((s.spriteColumn_eq_some x y r' d q).mp hd)
    exact hne (eq_of_add_mod_eq (hrow.symm.trans hrow') ((List.mem_range.mp hr).trans_le hh)
      ((List.mem_range.mp hr').trans_le hh))

/-! ### The drawing instruction (R212) -/

/-- A drawing step inverts the pixels named an odd number of times, and VF says whether some toggle met a lit pixel. -/
theorem State.drawStep_spec (s : State) (x y : Reg) (n : Nat) :
    (∀ p, Display.lit (s.drawStep x y n).display p = (Display.lit s.display p ^^ decide (s.spriteHits x y n p % 2 = 1))) ∧
    ((∃ p, 0 < s.spriteHits x y n p ∧ (Display.lit s.display p = true ∨ 2 ≤ s.spriteHits x y n p)) →
      (s.drawStep x y n).getV vf = 1) ∧
    ((∀ p, 0 < s.spriteHits x y n p → Display.lit s.display p = false ∧ s.spriteHits x y n p = 1) →
      (s.drawStep x y n).getV vf = 0) := by
  obtain ⟨hlit, hcollision⟩ :=
    Display.toggleAll_spec (s.spritePixels s.i.toNat n (s.getV x) (s.getV y)) s.display false
  have hvf : (s.drawStep x y n).getV vf =
      flagByte (Display.toggleAll s.display (s.spritePixels s.i.toNat n (s.getV x) (s.getV y)) false).1 :=
    s.getV_setV_same vf _
  simp only [← List.count_pos_iff, s.count_spritePixels x y n, Bool.false_eq_true, false_or] at hlit hcollision
  refine ⟨hlit, fun hmet => ?_, fun hnone => ?_⟩
  · rw [hvf, hcollision.mpr hmet]
    rfl
  · have hfalse : ¬ ∃ p, 0 < s.spriteHits x y n p ∧ (Display.lit s.display p = true ∨ 2 ≤ s.spriteHits x y n p) := by
      rintro ⟨p, hpos, hp⟩
      obtain ⟨hdark, hone⟩ := hnone p hpos
      rcases hp with hlit | htwo
      · exact Bool.false_ne_true (hdark.symm.trans hlit)
      · omega
    rw [hvf, Bool.eq_false_iff.mpr (fun h => hfalse (hcollision.mp h))]
    rfl

/-- Settles O42: in range the instruction is the drawing step; on a large screen the pixels under the sprite are those named once. -/
theorem drawInvertsTheSprite : Obligations.DrawInvertsTheSprite := by
  unfold Obligations.DrawInvertsTheSprite
  intro s x y n hrange
  obtain ⟨hlit, hmet, hnone⟩ := s.drawStep_spec x y n.toNat
  have hin : n.toNat = 0 ∨ s.i.toNat + n.toNat ≤ 4096 := hrange.imp_left (congrArg BitVec.toNat)
  refine ⟨_, (exec_drw s x y n).trans (congrArg _ (State.accessing_of_inRange hin)), hlit, hmet, hnone, fun hw hh => ?_, rfl, rfl,
    fun r hr => ?_, rfl⟩
  · have hone : ∀ p, s.InSprite x y n.toNat p → s.spriteHits x y n.toNat p = 1 := fun p hp =>
      le_antisymm (State.spriteHits_le_one x y p hw hh) ((s.spriteHits_pos_iff x y n.toNat p).mpr hp)
    have hzero : ∀ p, ¬ s.InSprite x y n.toNat p → s.spriteHits x y n.toNat p = 0 := fun p hp =>
      Nat.eq_zero_of_not_pos fun hpos => hp ((s.spriteHits_pos_iff x y n.toNat p).mp hpos)
    refine ⟨fun p hp => ?_, fun p hp => ?_, ?_, fun hdark => hnone fun p hpos => ?_⟩
    · simp [hlit, hone p hp]
    · simp [hlit, hzero p hp]
    · rintro ⟨p, hp, hplit⟩
      exact hmet ⟨p, (s.spriteHits_pos_iff x y n.toNat p).mpr hp, .inl hplit⟩
    · have hp := (s.spriteHits_pos_iff x y n.toNat p).mp hpos
      exact ⟨hdark p hp, hone p hp⟩
  · exact State.getV_setV_ne s _ (fun e => hr (List.mem_singleton.mpr e))

end Sys2Proof.Machine
end
